-- ==== Sys2Proof/Word.lean ====
section
/-! DEFINITION. The machine's one word, the byte, and the type of a checked register number
(spec/00_scope.md rule R7, spec/10_state.md rule R11). -/

namespace Sys2Proof

/-- A memory cell, a register, an operand byte, an address: 8 bits, unsigned (rule R7; the width
of an address is `ADDR_W` of rule R5). -/
abbrev Byte := BitVec 8

/-- The index of one of the 8 general registers, already checked to be 0..7 (rules R8, R11). -/
abbrev RegIdx := Fin 8

end Sys2Proof
end

