-- ==== Sys2Proof/Syntax.lean ====
section
/-! DEFINITION. The six instructions of spec/opcode_table.json, one constructor per row. An
operand is the whole operand byte as fetched (spec/30_encoding.md rules R50, R53): a register
operand above 7 is an instruction that can be fetched, and what it does (a fault) is part of that
instruction's meaning (spec/40_cycle_and_decode.md rule R75). -/

namespace Sys2Proof

/-- The closed instruction set (rules R1, R54). -/
inductive Instr where
  /-- `HLT`, format F0 (rule R120). -/
  | hlt
  /-- `PUSH r`, format F1 (rule R110). -/
  | push (r : Byte)
  /-- `POP r`, format F1 (rule R112). -/
  | pop (r : Byte)
  /-- `PRN r`, format F1 (rule R95). -/
  | prn (r : Byte)
  /-- `LDI r, imm`, format F2-RI (rule R90). -/
  | ldi (r imm : Byte)
  /-- `MUL a, b`, format F2-RR (rule R102). -/
  | mul (a b : Byte)
  deriving DecidableEq, Repr

end Sys2Proof
end

