-- ==== Sys2Proof/WellFormed.lean ====
section
/-! DEFINITION. When an instruction is well formed: every register operand names one of the eight
registers ("reg ∈ [0,7]", spec/30_encoding.md rule R53). A literal operand is always legal. -/

namespace Sys2Proof

/-- A register operand byte that selects a register (rule R53 (a)). -/
abbrev IsRegister (r : Byte) : Prop := r.toNat ≤ 7

/-- Every register operand of the instruction is 0..7 (rule R53); `imm` of LDI is unconstrained. -/
abbrev Instr.WellFormed : Instr → Prop
  | .hlt => True
  | .push r => IsRegister r
  | .pop r => IsRegister r
  | .prn r => IsRegister r
  | .ldi r _ => IsRegister r
  | .mul a b => IsRegister a ∧ IsRegister b

/-- The check as a Bool, for tests. -/
def Instr.wellFormed : Instr → Bool
  | .hlt => true
  | .push r => decide (IsRegister r)
  | .pop r => decide (IsRegister r)
  | .prn r => decide (IsRegister r)
  | .ldi r _ => decide (IsRegister r)
  | .mul a b => decide (IsRegister a) && decide (IsRegister b)

end Sys2Proof
end

