-- ==== Sys2Proof/Decode.lean ====
section
/-! DEFINITION. The decoder (spec/40_cycle_and_decode.md rule R72, spec/30_encoding.md rules R50 to
R58), total on any bytes, and after it the encoder, written from the same format tables. -/

namespace Sys2Proof

/-- `OPC_HLT` (rules R5, R54). -/
def opcHlt : Byte := 1

/-- `OPC_PUSH` (rules R5, R54). PRESUMED: that 69 is PUSH is the spec's decision D2; unsafe (log
entry 2). -/
def opcPush : Byte := 69

/-- `OPC_POP` (rules R5, R54). PRESUMED: that 70 is POP is the spec's decision D2; unsafe (log
entry 2). -/
def opcPop : Byte := 70

/-- `OPC_PRN` (rules R5, R54). -/
def opcPrn : Byte := 71

/-- `OPC_LDI` (rules R5, R54). -/
def opcLdi : Byte := 130

/-- `OPC_MUL` (rules R5, R54). -/
def opcMul : Byte := 162

/-- The operand count `n = op[7:6]` of an opcode byte (rules R51, R58). -/
def operandCount (op : Byte) : Nat := (op.extractLsb 7 6).toNat

/-- What the whole opcode byte identifies (rule R72 (a)). -/
inductive Identity where
  | hlt | push | pop | prn | ldi | mul
  /-- any byte outside the supported set, carrying its raw value (rule R55) -/
  | unknown (op : Byte)
  deriving DecidableEq, Repr

/-- The identity of an opcode byte, by comparing the whole byte with the six supported values
(rule R54); bits 5:0 are not decoded on their own (rule R51). -/
def identity (op : Byte) : Identity :=
  if op = opcHlt then .hlt
  else if op = opcPush then .push
  else if op = opcPop then .pop
  else if op = opcPrn then .prn
  else if op = opcLdi then .ldi
  else if op = opcMul then .mul
  else .unknown op

/-- `Decode(op)`: identity and operand count, a pure function of the opcode byte (rule R72). -/
def decodeOpcode (op : Byte) : Identity × Nat := (identity op, operandCount op)

/-- Why bytes are not an instruction. -/
inductive DecodeError where
  /-- there is no opcode byte at all; no fetch can meet this, since `pc` is always an address of
  memory (rule R71) -/
  | noOpcode
  /-- the opcode byte is not in the supported set (rule R55); tested before any operand (rule R138) -/
  | unknownOpcode (op : Byte)
  /-- the `k`-th operand byte (1 or 2) is not there; the first missing one is named (rule R74) -/
  | missingOperand (k : Nat)
  deriving DecidableEq, Repr

/-- The one operand of a format F1 instruction (rule R52). -/
def decodeF1 (build : Byte → Instr) : List Byte → Except DecodeError (Instr × List Byte)
  | r :: rest => .ok (build r, rest)
  | [] => .error (.missingOperand 1)

/-- The two operands of a format F2 instruction, in ascending address order (rules R52, R74). -/
def decodeF2 (build : Byte → Byte → Instr) : List Byte → Except DecodeError (Instr × List Byte)
  | o1 :: o2 :: rest => .ok (build o1 o2, rest)
  | [_] => .error (.missingOperand 2)
  | [] => .error (.missingOperand 1)

/-- The instruction at the front of a list of bytes, with the bytes after it, or why there is none
(rules R50 to R58, R72 to R74). -/
def decode : List Byte → Except DecodeError (Instr × List Byte)
  | [] => .error .noOpcode
  | op :: rest =>
    match identity op with
    | .hlt => .ok (.hlt, rest)
    | .push => decodeF1 .push rest
    | .pop => decodeF1 .pop rest
    | .prn => decodeF1 .prn rest
    | .ldi => decodeF2 .ldi rest
    | .mul => decodeF2 .mul rest
    | .unknown v => .error (.unknownOpcode v)

/-- The opcode byte of an instruction (rule R54). -/
def Instr.opcode : Instr → Byte
  | .hlt => opcHlt
  | .push _ => opcPush
  | .pop _ => opcPop
  | .prn _ => opcPrn
  | .ldi _ _ => opcLdi
  | .mul _ _ => opcMul

/-- The bytes of an instruction, opcode first, operands at ascending addresses (rules R50, R52; the
byte table of rule R59). -/
def encode : Instr → List Byte
  | .hlt => [opcHlt]
  | .push r => [opcPush, r]
  | .pop r => [opcPop, r]
  | .prn r => [opcPrn, r]
  | .ldi r imm => [opcLdi, r, imm]
  | .mul a b => [opcMul, a, b]

/-- The bytes of an instruction given as one number in the opcode table's numbering: bit 0 is the
least significant bit of the first byte, the second byte is bits 15..8, the third bits 23..16;
every bit from `nbits` on is 0. Three bytes, the longest instruction (rule R50). -/
def tableBytes (nbits w : Nat) : List Byte :=
  let v := w % 2 ^ nbits
  [BitVec.ofNat 8 v, BitVec.ofNat 8 (v / 256), BitVec.ofNat 8 (v / 65536)]

/-- The instruction the decoder reads from a table word; none where it refuses. -/
def decodeTableWord (nbits w : Nat) : Option Instr :=
  match decode (tableBytes nbits w) with
  | .ok (i, _) => some i
  | .error _ => none

end Sys2Proof
end

