-- ==== Sys2Proof/Config.lean ====
section
/-! DEFINITION. The parameters of spec/00_scope.md rule R5 that the source itself states. The
parameters that are the spec's decisions stand where a repair may mend them: `SP_INDEX` in
Machine/StackPointer.lean, the opcodes in Decode.lean, the two overflow rules in
Machine/Ops.lean, Machine/Operands.lean and Machine/Fetch.lean. The spec leaves no value free, so
there is no opaque constant here. -/

namespace Sys2Proof.Config

/-- `MEM_SIZE`: the number of memory cells, addresses 0 to 255 (rules R5, R30). -/
abbrev memSize : Nat := 256

/-- `SP_RESET`: the reset value of the stack-pointer register (rules R5, R23). -/
def spReset : Byte := 0xF4

/-- `PC_RESET`: the reset value of the program counter (rules R5, R23). -/
def pcReset : Byte := 0

/-- `LOAD_BASE`: the address of the first byte the Loader writes (rules R5, R162). -/
def loadBase : Nat := 0

end Sys2Proof.Config
end

