-- ==== Sys2Proof/Machine/StackPointer.lean ====
section
/-! DEFINITION. Which register is the stack pointer (spec/10_state.md rule R13). -/

namespace Sys2Proof.Machine

/-- `SP_INDEX`, the index of the stack-pointer register (rules R5, R13). PRESUMED: 7 is the spec's
decision D1, from the LS-8 convention; unsafe (log entry 1). -/
def spIndex : RegIdx := 7

end Sys2Proof.Machine
end

