-- ==== Sys2Proof/Machine/State.lean ====
section
/-! DEFINITION. The architectural state `(mem, x, pc, run, out)` of spec/10_state.md rule R10, the
fault reasons of spec/60_exceptions.md rule R130, the state after reset (rules R23, R160), and the
host's two reason types. -/

namespace Sys2Proof.Machine

/-- The three kinds of `OutOfRange` (rules R130, R133). -/
inductive RangeKind where
  /-- an operand byte would be read at an address above 255 (F3) -/
  | operandFetch
  /-- an operand byte that names a register is above 7 (F4) -/
  | registerIndex
  /-- the successor address `pc + 1 + n` is above 255 (F5) -/
  | pcAdvance
  deriving DecidableEq, Repr

/-- The reason a run faulted, with its recorded value (rule R130). These are states of the machine
(rule R135), not outcomes: see log entry 14. -/
inductive FaultReason where
  /-- F1: the opcode byte fetched (rule R131) -/
  | unknownOpcode (value : Byte)
  /-- F2: the ALU operation requested; no step raises it (rules R105, R132) -/
  | unsupportedAluOperation (name : String)
  /-- F3 to F5: the kind and the offending number (rule R133) -/
  | outOfRange (kind : RangeKind) (value : Nat)
  deriving DecidableEq, Repr

/-- The run state `run` (rule R17). -/
inductive RunState where
  | running
  | halted
  | faulted (reason : FaultReason)
  deriving DecidableEq, Repr

/-- The 256 memory cells (rules R10, R21, R30): the cells that differ from what an unlisted address
reads as (0, rule R21), in strictly rising address order. `Memory.Wf` in Machine/Ops.lean is that form. -/
abbrev Memory := List Host.Cell

/-- The complete architectural state (rule R10). -/
structure State where
  /-- memory (rules R21, R30) -/
  mem : Memory
  /-- the eight general registers `x[0]` to `x[7]` (rule R11) -/
  x : Vector Byte 8
  /-- the program counter (rule R15). DESIGN CHOICE (the spec's D19): 8 bits; safe (log entry 13). -/
  pc : Byte
  /-- the run state (rule R17) -/
  run : RunState
  /-- the output stream, oldest value first (rule R22; log entry 6) -/
  out : List Byte
  deriving DecidableEq, Repr

/-- The reasons an outcome of the host's interface may be a fault. There is none: every fault the
spec describes is a next state with `run = faulted reason` (rule R135; log entry 14), and no access
can leave the address space (rule R31), so nothing in the model raises one; safe. -/
inductive Fault where
  deriving DecidableEq, Repr

/-- The reasons the model refuses. -/
inductive Refusal where
  /-- raised by an arm of `exec` for an instruction that has no meaning yet; no arm uses it; safe -/
  | notModelled (mnemonic : String)
  /-- raised by `loadImage` for an image of more than 256 bytes, of the given length: the Loader must
  refuse it and the hardware is never started on one (rule R164; log entry 9); safe -/
  | imageTooLong (length : Nat)
  deriving DecidableEq, Repr

/-- The state after reset, every field at the value of rule R23 (rule R160). `run = running` is the
value once the load has completed (rule R163; log entry 8). -/
def State.reset : State where
  mem := []
  x := (Vector.replicate 8 (0 : Byte)).set spIndex Config.spReset
  pc := Config.pcReset
  run := .running
  out := []

end Sys2Proof.Machine
end

