-- ==== Sys2Proof/Machine/Ops.lean ====
section
/-! DEFINITION. The named operations over memory, registers, the output stream and the run state
(the primitives of spec/00_scope.md rule R8), taking a fault (spec/60_exceptions.md rule R135), the
advance of `pc` (spec/40_cycle_and_decode.md rule R77), and how an instruction's step ends. -/

namespace Sys2Proof.Machine

/-- What an address that memory does not list reads as: the reset contents (rules R21, R23). -/
def Memory.unlisted : Byte := 0

/-- The byte listed at a key, or what an unlisted address reads as. -/
def Memory.find (a : Nat) : Memory → Byte
  | [] => Memory.unlisted
  | (k, v) :: m => if k = a then v else Memory.find a m

/-- Insert a cell before the first key that is not below it. -/
def Memory.insert (a : Nat) (v : Byte) : Memory → Memory
  | [] => [(a, v)]
  | c :: m => if c.1 < a then c :: Memory.insert a v m else (a, v) :: c :: m

/-- List the byte `v` at the key `a` in place of what is listed there, keeping the canonical form: a
value equal to what an unlisted address reads as is not listed. -/
def Memory.put (a : Nat) (v : Byte) (m : Memory) : Memory :=
  let others := m.filter (fun c => c.1 ≠ a)
  if v = Memory.unlisted then others else Memory.insert a v others

/-- `MemRead(a, 1)`: the byte at address `a` (rules R8, R31). -/
def Memory.read (m : Memory) (a : Byte) : Byte := Memory.find a.toNat m

/-- `MemWrite(a, 1, v)`: cell `a` becomes `v`, nothing else changes (rules R8, R31). -/
def Memory.write (m : Memory) (a v : Byte) : Memory := Memory.put a.toNat v m

/-- The canonical form: addresses strictly rising, each below 256, and no listed value equal to what
an unlisted address reads as. -/
abbrev Memory.Wf (m : Memory) : Prop :=
  m.Pairwise (fun c d => c.1 < d.1) ∧ ∀ c ∈ m, c.1 < Config.memSize ∧ c.2 ≠ Memory.unlisted

/-- Write bytes at ascending addresses from `a`; what would lie above 255 is not written. -/
def Memory.writeFrom (a : Nat) : List Byte → Memory → Memory
  | [], m => m
  | b :: bs, m =>
    if a < Config.memSize then Memory.writeFrom (a + 1) bs (m.write (BitVec.ofNat 8 a) b) else m

/-- A value truncated to one byte, `v mod 256` (rule R12). -/
def truncate (v : Nat) : Byte := BitVec.ofNat 8 v

/-- `x[i]`, the register file's `get` (rules R8, R11). -/
def State.reg (s : State) (i : RegIdx) : Byte := s.x[i]

/-- `x[i] <- v`, the register file's `set` (rules R8, R12). -/
def State.setReg (s : State) (i : RegIdx) (v : Byte) : State := { s with x := s.x.set i v }

/-- `SP`, shorthand for the stack-pointer register (rules R8, R13). -/
def State.sp (s : State) : Byte := s.reg spIndex

/-- `SP <- v` (rules R8, R13). -/
def State.setSp (s : State) (v : Byte) : State := s.setReg spIndex v

/-- `MemWrite` on the machine's memory (rule R31). -/
def State.store (s : State) (a v : Byte) : State := { s with mem := s.mem.write a v }

/-- `Emit(v)`: append to the output stream (rules R8, R22). -/
def State.emit (s : State) (v : Byte) : State := { s with out := s.out ++ [v] }

/-- `halt`: the run state becomes `Halted`, `pc` is unchanged (rules R8, R120). -/
def State.halt (s : State) : State := { s with run := .halted }

/-- Taking a fault, `raise F(info)`: the run state becomes `Faulted` with the reason; `pc` and all
else are unchanged, nothing is saved and control goes nowhere (rules R8, R135). There is no return
from a fault (rule R136): only reset leaves the faulted state. -/
def State.raise (s : State) (r : FaultReason) : State := { s with run := .faulted r }

/-- The advance after an instruction with `n` operands (rule R77): `pc <- pc + 1 + n` as a natural
number if that is at most 255, else `OutOfRange(PcAdvance, pc + 1 + n)` with the effect kept.
DESIGN CHOICE (the spec's D4): the fault instead of a wrap; safe (log entry 4). -/
def State.advance (s : State) (n : Nat) : State :=
  let next := s.pc.toNat + 1 + n
  if next ≤ 255 then { s with pc := BitVec.ofNat 8 next } else s.raise (.outOfRange .pcAdvance next)

/-- How the step of an instruction other than HLT ends, given its opcode and its effect on `s`: an
effect that answers a fault leaves `s` with that fault taken, before any effect (rules R75, R135);
otherwise the effect is committed and `pc` advances by 1 plus the operand count decoded from the
opcode (rules R77, R58). -/
def complete (op : Byte) (s : State) (effect : Except FaultReason State) :
    Host.Outcome State Fault Refusal :=
  match effect with
  | .error r => .next (s.raise r)
  | .ok t => .next (t.advance (operandCount op))

end Sys2Proof.Machine
end

