-- ==== Sys2Proof/Machine/Operands.lean ====
section
/-! DEFINITION. The operand forms: a register index, a literal (spec/30_encoding.md rule R53), and the
one data addressing mode, register-indirect through the stack pointer (spec/44_stack.md rule R116). -/

namespace Sys2Proof.Machine

/-- A register-index operand: the whole byte, a register when it is 0..7, else
`OutOfRange(RegisterIndex, byte)` (rules R53 (a), R75). DESIGN CHOICE (the spec's D5): the fault
instead of masking the byte; safe (log entry 5). -/
def regOperand (r : Byte) : Except FaultReason RegIdx :=
  if h : r.toNat < 8 then .ok ⟨r.toNat, h⟩ else .error (.outOfRange .registerIndex r.toNat)

/-- A literal operand: the whole byte as it is (rule R53 (b)). -/
def literalOperand (imm : Byte) : Byte := imm

/-- The effective address of a PUSH: `(SP - 1) mod 256`, from `SP` before the instruction
(rules R36, R116). -/
def pushAddress (s : State) : Byte := s.sp - 1

/-- The effective address of a POP: `SP` before the instruction (rules R36, R116). -/
def popAddress (s : State) : Byte := s.sp

end Sys2Proof.Machine
end

