-- ==== Sys2Proof/Machine/Flags.lean ====
section
/-! DEFINITION. Flags. The hardware has no flags register, no condition code and no predicate
(spec/10_state.md rule R18, spec/90_conflicts.md C2), so there is no flag computation to write. What
is left of the source's remark on flags is the decoder's classification (spec/40_cycle_and_decode.md
rule R82), which selects nothing beyond the identity. -/

namespace Sys2Proof.Machine

/-- Whether an instruction is an ALU operation: of the six only MUL is (rule R82). -/
def isAluOperation : Instr → Bool
  | .mul _ _ => true
  | .hlt => false
  | .push _ => false
  | .pop _ => false
  | .prn _ => false
  | .ldi _ _ => false

end Sys2Proof.Machine
end

