-- ==== Sys2Proof/Machine/Alu.lean ====
section
/-! DEFINITION. The ALU dispatcher, its two operations, and multiply (spec/43_alu.md). -/

namespace Sys2Proof.Machine

/-- The closed set of ALU operations (rule R101). -/
inductive AluOp where
  | add
  | mul
  deriving DecidableEq, Repr

/-- What the dispatcher can be asked for: an operation of the set, or a name outside it. The second
form lets fault F2 be written down (rule R105); the decoder never asks for it. -/
inductive AluSelector where
  | supported (op : AluOp)
  | unsupported (name : String)
  deriving DecidableEq, Repr

/-- The result of an ALU operation: exact on natural numbers, then truncated to one byte (rules R102,
R104, R106). PRESUMED (the spec's D9): what ADD computes; safe, since no opcode selects it (log
entry 10). -/
def aluResult (op : AluOp) (v w : Byte) : Byte :=
  match op with
  | .add => truncate (v.toNat + w.toNat)
  | .mul => truncate (v.toNat * w.toNat)

/-- `Alu(opsel, a, b)`: `x[a]` becomes the result on `x[a]` and `x[b]`, and nothing else changes
(rule R100); a name outside the set is `UnsupportedAluOperation(name)` (rule R105). -/
def alu (sel : AluSelector) (a b : RegIdx) (s : State) : Except FaultReason State :=
  match sel with
  | .supported op => .ok (s.setReg a (aluResult op (s.reg a) (s.reg b)))
  | .unsupported name => .error (.unsupportedAluOperation name)

/-- MUL a, b: `x[a] <- (x[a] * x[b]) mod 256` through the ALU, then `pc` advances by 3 (rule R102);
the first operand, A, is the destination (spec/30_encoding.md rule R59); `a` is checked before `b`
(rule R75). -/
def execMul (a b : Byte) (s : State) : Host.Outcome State Fault Refusal :=
  complete opcMul s
    ((regOperand a).bind fun i => (regOperand b).bind fun j => alu (.supported .mul) i j s)

end Sys2Proof.Machine
end

