-- ==== Sys2Proof/Machine/Halt.lean ====
section
/-! DEFINITION. Halt (spec/45_halt.md). -/

namespace Sys2Proof.Machine

/-- HLT: the run state becomes `Halted`; `pc` does not advance and nothing else changes (rule R120). -/
def execHlt (s : State) : Host.Outcome State Fault Refusal := .next s.halt

end Sys2Proof.Machine
end

