-- ==== Sys2Proof/Machine/LoadImmediate.lean ====
section
/-! DEFINITION. Load immediate (spec/41_load_immediate.md). -/

namespace Sys2Proof.Machine

/-- LDI r, imm: `x[r] <- imm`, then `pc` advances by 3 (rule R90). -/
def execLdi (r imm : Byte) (s : State) : Host.Outcome State Fault Refusal :=
  complete opcLdi s ((regOperand r).map fun i => s.setReg i (literalOperand imm))

end Sys2Proof.Machine
end

