-- ==== Sys2Proof/Machine/Output.lean ====
section
/-! DEFINITION. Output (spec/42_output.md). -/

namespace Sys2Proof.Machine

/-- PRN r: `Emit(x[r])`, then `pc` advances by 2 (rule R95). DESIGN CHOICE (the spec's D6): the
output is the list `out` in the state; safe (log entry 6). -/
def execPrn (r : Byte) (s : State) : Host.Outcome State Fault Refusal :=
  complete opcPrn s ((regOperand r).map fun i => s.emit (s.reg i))

end Sys2Proof.Machine
end

