-- ==== Sys2Proof/Machine/Stack.lean ====
section
/-! DEFINITION. The stack operations (spec/44_stack.md). -/

namespace Sys2Proof.Machine

/-- `v <- x[i]`; `SP <- (SP - 1) mod 256`; `MemWrite(SP, 1, v)`: the value is read before `SP` is
decremented, so pushing `SP` stores its old value (rule R110, spec/90_conflicts.md C3). -/
def pushEffect (i : RegIdx) (s : State) : State :=
  (s.setSp (pushAddress s)).store (pushAddress s) (s.reg i)

/-- `x[i] <- MemRead(SP, 1)`, then `SP <- (SP + 1) mod 256`, in that order: popping into `SP` gives
the loaded byte plus 1 (rule R112 corner case (c)). DEDUCED (the spec's D20, INFERRED); unsafe (log
entry 11). -/
def popEffect (i : RegIdx) (s : State) : State :=
  let t := s.setReg i (s.mem.read (popAddress s))
  t.setSp (t.sp + 1)

/-- PUSH r (rule R110), then `pc` advances by 2. -/
def execPush (r : Byte) (s : State) : Host.Outcome State Fault Refusal :=
  complete opcPush s ((regOperand r).map fun i => pushEffect i s)

/-- POP r (rule R112), then `pc` advances by 2. DEDUCED (the spec's D17, INFERRED): the source gives
POP's meaning from the stack contract only; unsafe (log entry 11). -/
def execPop (r : Byte) (s : State) : Host.Outcome State Fault Refusal :=
  complete opcPop s ((regOperand r).map fun i => popEffect i s)

end Sys2Proof.Machine
end

