-- ==== Sys2Proof/Machine/Dispatch.lean ====
section
/-! DEFINITION. Dispatch on instruction identity (spec/40_cycle_and_decode.md rule R76): one arm per
constructor of Instr. -/

namespace Sys2Proof.Machine

-- What an instruction of a running engine does (rules R75 to R77); `step` calls it only when
-- `run = Running` (rule R70; log entry 15).
def exec (i : Instr) (s : State) : Host.Outcome State Fault Refusal :=
  match i with
  | .hlt => Sys2Proof.Machine.execHlt s
  | .push r => Sys2Proof.Machine.execPush r s
  | .pop r => Sys2Proof.Machine.execPop r s
  | .prn r => Sys2Proof.Machine.execPrn r s
  | .ldi r imm => Sys2Proof.Machine.execLdi r imm s
  | .mul a b => Sys2Proof.Machine.execMul a b s

end Sys2Proof.Machine
end

