-- ==== Sys2Proof/Machine/Fetch.lean ====
section
/-! DEFINITION. Fetching an instruction (spec/40_cycle_and_decode.md rules R71 to R74), and writing an
image (spec/70_reset_and_hazards.md rules R162, R164). -/

namespace Sys2Proof.Machine

/-- The byte at a natural-number address, if the address is in memory (rule R35: fetch addresses are
natural numbers and do not wrap). -/
def State.byteAt (s : State) (a : Nat) : Option Byte :=
  if a ≤ 255 then some (s.mem.read (BitVec.ofNat 8 a)) else none

/-- The bytes at `pc`, `pc + 1` and `pc + 2` that lie in memory, at ascending addresses (rule R50). A
read has no effect (rule R31), so taking bytes the instruction does not use changes nothing. -/
def State.codeBytes (s : State) : List Byte :=
  [s.pc.toNat, s.pc.toNat + 1, s.pc.toNat + 2].filterMap s.byteAt

/-- The fault for bytes that are no instruction: an unknown opcode (rule R73), or an operand whose
address `pc + k` is above 255 (rule R74). DESIGN CHOICE (the spec's D3): the fault instead of a wrap;
safe (log entry 3). -/
def fetchFault (pc : Byte) : DecodeError → FaultReason
  | .unknownOpcode op => .unknownOpcode op
  | .missingOperand k => .outOfRange .operandFetch (pc.toNat + k)
  | .noOpcode => .outOfRange .operandFetch pc.toNat

/-- Fetch, decode and operand fetch: the instruction at `pc`, or the fault raised (rules R71 to R74,
in the order of rule R138). -/
def fetch (s : State) : Except FaultReason Instr :=
  match decode s.codeBytes with
  | .ok (i, _) => .ok i
  | .error e => .error (fetchFault s.pc e)

/-- The Loader's contract: write the image from address 0; registers, `pc`, `run` and `out` are not
touched (rule R162). An image of more than 256 bytes is refused (rule R164). DESIGN CHOICE (the
spec's D10); safe (log entry 9). -/
def loadImage (image : List Byte) (s : State) : Host.Outcome State Fault Refusal :=
  if image.length ≤ Config.memSize then
    .next { s with mem := Memory.writeFrom Config.loadBase image s.mem }
  else .refused (.imageTooLong image.length)

end Sys2Proof.Machine
end

