-- ==== Sys2Proof/Machine/Cycle.lean ====
section
/-! DEFINITION. The whole step of spec/40_cycle_and_decode.md rule R79. -/

namespace Sys2Proof.Machine

/-- A running engine's step: fetch and decode, then the instruction's meaning, or the fault the
fetch raised (rules R70 to R77). -/
def runningCycle (s : State) : Host.Outcome State Fault Refusal :=
  match fetch s with
  | .ok i => exec i s
  | .error r => .next (s.raise r)

/-- In a terminal state nothing is fetched and no state changes (rule R78). DEDUCED: "no step is
taken" is modelled as a step that changes nothing; safe (log entry 7). -/
def terminalCycle (s : State) : Host.Outcome State Fault Refusal := .next s

/-- One step: the engine acts only while `run = Running` (rules R70, R78). -/
def cycle (s : State) : Host.Outcome State Fault Refusal :=
  match s.run with
  | .running => runningCycle s
  | .halted => terminalCycle s
  | .faulted _ => terminalCycle s

/-- `s` with a table word's bytes at `pc` and the engine running, so that its next step fetches them
(log entry 8). -/
def placeWord (s : State) (nbits w : Nat) : State :=
  { s with mem := Memory.writeFrom s.pc.toNat (tableBytes nbits w) s.mem, run := .running }

end Sys2Proof.Machine
end

