-- ==== Sys2Proof/Machine/Step.lean ====
section
/-! DEFINITION. The step and the placing of one instruction word; both only call Machine/Cycle.lean. -/

namespace Sys2Proof.Machine

/-- One step of the machine (spec/40_cycle_and_decode.md rules R70, R78, R79). -/
def step (s : State) : Host.Outcome State Fault Refusal := cycle s

/-- `s` with the instruction of a table word stored where `step` fetches next. -/
def State.withFetchWord (s : State) (nbits w : Nat) : State := placeWord s nbits w

end Sys2Proof.Machine
end

