-- ==== Sys2Proof/Safety.lean ====
section
/-! DEFINITION. What counts as the end of a run, a normal end, and the invariants claims are stated
with. -/

namespace Sys2Proof.Machine

/-- A run is over: `run` is `Halted` or `Faulted(reason)` (spec/70_reset_and_hazards.md rule R166). -/
abbrev State.Stopped (s : State) : Prop := s.run ≠ .running

/-- A run ended normally: `run = Halted` (rules R136, R166). A faulted end is not a normal one. -/
abbrev State.EndedNormally (s : State) : Prop := s.run = .halted

/-- The six supported opcodes (spec/30_encoding.md rule R54). -/
def supportedOpcodes : List Byte := [1, 69, 70, 71, 130, 162]

/-- What `run` says about why the machine stopped agrees with the rest of the state
(spec/60_exceptions.md rules R130 to R133, spec/70_reset_and_hazards.md rule R166): a halt stands at a
HLT byte; each fault carries a value it can have, at a `pc` where it can be raised; the unreachable
ALU fault is absent. -/
abbrev State.StopRecordOk (s : State) : Prop :=
  match s.run with
  | .running => True
  | .halted => s.mem.read s.pc = 1
  | .faulted (.unknownOpcode v) => s.mem.read s.pc = v ∧ v ∉ supportedOpcodes
  | .faulted (.unsupportedAluOperation _) => False
  | .faulted (.outOfRange .operandFetch a) =>
    a = 256 ∧ ((s.mem.read s.pc ∈ [(130 : Byte), 162] ∧ 254 ≤ s.pc.toNat) ∨
      (s.mem.read s.pc ∈ [(69 : Byte), 70, 71] ∧ s.pc.toNat = 255))
  | .faulted (.outOfRange .registerIndex v) =>
    8 ≤ v ∧ ((s.mem.read (s.pc + 1)).toNat = v ∨
      (s.mem.read s.pc = 162 ∧ (s.mem.read (s.pc + 2)).toNat = v))
  | .faulted (.outOfRange .pcAdvance a) => a = 256 ∧ (s.pc.toNat = 253 ∨ s.pc.toNat = 254)

/-- The invariant every step keeps: memory is in its canonical form and the stop record is sound. -/
abbrev State.Inv (s : State) : Prop := s.mem.Wf ∧ s.StopRecordOk

end Sys2Proof.Machine
end

