-- ==== Sys2Proof/Certificates/Slice0/Obligations.lean ====
section
/-! DEFINITION. The statements for the provers. Each docstring names the rules of spec/ it formalises;
where a clause rests on a decision the spec marks as its own, it names the log entry. -/

namespace Sys2Proof.Spec

open Sys2Proof Sys2Proof.Machine

/-- The operand byte that names register `i` (spec/30_encoding.md rule R53): every well-formed register
operand is `regByte i` for one `i`. -/
def regByte (i : RegIdx) : Byte := BitVec.ofNat 8 i.val

/-- The bytes `bs` stand at `pc` and after it, none above address 255 (rule R50). -/
def HasCode (s : State) (bs : List Byte) : Prop :=
  ∀ k b, bs[k]? = some b →
    s.pc.toNat + k ≤ 255 ∧ s.mem.read (BitVec.ofNat 8 (s.pc.toNat + k)) = b

/-- The table of spec/30_encoding.md rule R59, row by row: what the assembly line names, and its bytes. -/
def tableR59 (r a b : RegIdx) (imm : Byte) : List (Instr × List Byte) :=
  [(.hlt, [1]),
   (.push (regByte r), [69, regByte r]),
   (.pop (regByte r), [70, regByte r]),
   (.prn (regByte r), [71, regByte r]),
   (.ldi (regByte r) imm, [130, regByte r, imm]),
   (.mul (regByte a) (regByte b), [162, regByte a, regByte b])]

/-- The effect of an instruction other than HLT in spec/40_cycle_and_decode.md rule R79, given its opcode
and operand bytes as numbers, written out over the raw state. -/
def effectR79 (op o1 o2 : Nat) (s : State) : State :=
  let x := fun i => (s.x[i]?.getD 0).toNat
  let set := fun i v => s.x.setIfInBounds i (BitVec.ofNat 8 v)
  if op = 130 then { s with x := set o1 o2 }
  else if op = 71 then { s with out := s.out ++ [BitVec.ofNat 8 (x o1)] }
  else if op = 162 then { s with x := set o1 (x o1 * x o2 % 256) }
  else if op = 69 then
    { s with x := set 7 ((x 7 + 255) % 256),
             mem := s.mem.write (BitVec.ofNat 8 ((x 7 + 255) % 256)) (BitVec.ofNat 8 (x o1)) }
  else
    let y := set o1 (s.mem.read (BitVec.ofNat 8 (x 7))).toNat
    { s with x := y.setIfInBounds 7 (BitVec.ofNat 8 (((y[7]?.getD 0).toNat + 1) % 256)) }

/-- The step function of spec/40_cycle_and_decode.md rule R79, written out from its pseudocode over the
raw state, with none of the model's decoder, operand forms, meanings or advance. -/
def stepR79 (s : State) : State :=
  let pc := s.pc.toNat
  let op := (s.mem.read s.pc).toNat
  let n := op / 64
  let o1 := (s.mem.read (BitVec.ofNat 8 (pc + 1))).toNat
  let o2 := (s.mem.read (BitVec.ofNat 8 (pc + 2))).toNat
  let fault := fun r => { s with run := RunState.faulted r }
  if op ∉ [1, 69, 70, 71, 130, 162] then fault (.unknownOpcode (BitVec.ofNat 8 op))
  else if 1 ≤ n ∧ 255 < pc + 1 then fault (.outOfRange .operandFetch (pc + 1))
  else if n = 2 ∧ 255 < pc + 2 then fault (.outOfRange .operandFetch (pc + 2))
  else if op = 1 then { s with run := .halted }
  else if 7 < o1 then fault (.outOfRange .registerIndex o1)
  else if op = 162 ∧ 7 < o2 then fault (.outOfRange .registerIndex o2)
  else
    let t := effectR79 op o1 o2 s
    if 255 < pc + 1 + n then { t with run := .faulted (.outOfRange .pcAdvance (pc + 1 + n)) }
    else { t with pc := BitVec.ofNat 8 (pc + 1 + n) }

end Sys2Proof.Spec

open Sys2Proof Sys2Proof.Machine Sys2Proof.Spec

/-! ### Encoding and decoding -/

/-- Decoding and encoding agree both ways, with any bytes following: no bit of an encoding is dropped,
and bytes decode to one instruction only (spec/30_encoding.md rules R50 to R54). -/
def Obligations.DecodeEncodeAgree : Prop :=
  (∀ (i : Instr) (rest : List Byte), decode (encode i ++ rest) = .ok (i, rest)) ∧
  (∀ (bs rest : List Byte) (i : Instr), decode bs = .ok (i, rest) → bs = encode i ++ rest)

/-- Words written out from the encoding tables decode to the instructions they stand for
(rules R52, R54, R59; PUSH and POP rest on the spec's D2, log entry 2). -/
def Obligations.WrittenOutWordsDecode : Prop :=
  decode [0b00000001] = .ok (.hlt, []) ∧
  decode [0b01000101, 0b00000011] = .ok (.push 3, []) ∧
  decode [0b01000110, 0b00000111] = .ok (.pop 7, []) ∧
  decode [0b01000111, 0b00000000] = .ok (.prn 0, []) ∧
  decode [0b10000010, 0b00000000, 0b00001000] = .ok (.ldi 0 8, []) ∧
  decode [0b10100010, 0b00000000, 0b00000001] = .ok (.mul 0 1, [])

/-- An instruction's length is `1 + op[7:6]`, told by the opcode byte alone: it does not depend on the
bytes that follow (rule R58). -/
def Obligations.LengthFromOpcodeAlone : Prop :=
  ∀ (op : Byte) (bs rest : List Byte) (i : Instr), decode (op :: bs) = .ok (i, rest) →
    (op :: bs).length = 1 + op.toNat / 64 + rest.length ∧
    ∀ more : List Byte, decode (op :: (bs ++ more)) = .ok (i, rest ++ more)

/-- `Decode(op)`: the six supported values have their identities, every other byte is unknown with its
raw value, and the operand count is `op` divided by 64 (rules R51, R54, R72; the values of PUSH and
POP are the spec's D2, log entry 2). -/
def Obligations.DecoderIdentityAndCount : Prop :=
  ∀ op : Byte, decodeOpcode op =
    ((([(1, Identity.hlt), (69, .push), (70, .pop), (71, .prn), (130, .ldi), (162, .mul)] :
        List (Byte × Identity)).lookup op).getD (.unknown op), op.toNat / 64)

/-! ### The step -/

/-- When the bytes of an instruction stand at `pc` and the engine is running, the step is that
instruction's meaning and nothing is added around it (rules R70, R76). -/
def Obligations.StepRunsDecodedInstruction : Prop :=
  (∀ (s : State) (i : Instr), s.run = .running → HasCode s (encode i) → step s = exec i s) ∧
  (∀ (s : State) (i : Instr) (rest : List Byte), s.run = .running →
    decode s.codeBytes = .ok (i, rest) → step s = exec i s)

/-- The model's step is the whole-step function of rule R79 on every running state. It rests on the
spec's decisions that R79 collects (log entries 1 to 5, 11 and 12). -/
def Obligations.StepIsTheWholeStepFunction : Prop :=
  ∀ s : State, s.run = .running → step s = .next (stepR79 s)

/-- A step of a running engine always answers, in one of three ways: `pc` advanced by one plus the
operand count of the opcode at `pc` and still running; halted; faulted; in the last two `pc` stays.
When the engine is not running it takes no step: nothing changes (rules R70, R78; that the model's step
there answers the same state is DEDUCED, log entry 7). -/
def Obligations.StepEndsInOneOfThreeWays : Prop :=
  (∀ s : State, s.run = .running → ∃ t, step s = .next t ∧
    ((t.run = .running ∧ t.pc.toNat = s.pc.toNat + 1 + (s.mem.read s.pc).toNat / 64) ∨
     (t.run = .halted ∧ t.pc = s.pc) ∨
     (∃ r, t.run = .faulted r ∧ t.pc = s.pc))) ∧
  (∀ s : State, s.run ≠ .running → step s = .next s)

/-- A stopped engine stays as it is for every number of further steps: no fault is recovered from, no
second fault occurs and the reason is never overwritten (rules R78, R136). That only reset leaves a
terminal state is the spec's D12; that a step there answers the same state is DEDUCED, log entry 7. -/
def Obligations.StoppedEngineNeverChanges : Prop :=
  ∀ s : State, s.Stopped → ∀ k : Nat, Host.Core.run Sys2Proof.core k s = .next s

/-- From every state, a run has stopped after 128 steps and after any larger number, and each step that
leaves the engine running raises `pc` by at least 2 (rule R81; it rests on the spec's D4, that an
advance past 255 faults, log entry 4; that a run stays stopped once it has stopped is the spec's D12, in
the model by log entry 7, DEDUCED). -/
def Obligations.EveryRunEndsWithin128Steps : Prop :=
  (∀ (s : State) (k : Nat), 128 ≤ k →
    ∃ t : State, Host.Core.run Sys2Proof.core k s = .next t ∧ t.Stopped) ∧
  (∀ s t : State, step s = .next t → t.run = .running → s.pc.toNat + 2 ≤ t.pc.toNat)

/-- A step of a running engine halts exactly when it fetched the byte 1 at `pc` (rule R166). -/
def Obligations.HaltsExactlyAtTheHaltByte : Prop :=
  ∀ s t : State, s.run = .running → step s = .next t →
    (t.EndedNormally ↔ s.mem.read s.pc = 1)

/-! ### Faults -/

/-- A byte outside the supported set is fatal at decode: the reason carries the raw byte, nothing else
changes, whatever bytes follow it; and the fault has no other cause (rules R55, R73, R131). -/
def Obligations.UnknownOpcodeFaultsAtDecode : Prop :=
  (∀ op : Byte, op ∉ supportedOpcodes → (decodeOpcode op).1 = .unknown op) ∧
  (∀ s : State, s.run = .running → s.mem.read s.pc ∉ supportedOpcodes →
    step s = .next { s with run := .faulted (.unknownOpcode (s.mem.read s.pc)) }) ∧
  (∀ (s t : State) (v : Byte), s.run = .running → step s = .next t →
    t.run = .faulted (.unknownOpcode v) → v = s.mem.read s.pc ∧ v ∉ supportedOpcodes)

/-- An operand address above 255 faults with the address 256 and no effect, whatever the other operand
is: LDI and MUL at `pc` 254 and 255, PRN, PUSH and POP at `pc` 255; and at no other place (rules R35,
R74, R133 (a); the fault instead of a wrap is the spec's D3, log entry 3; that it is the reason recorded
where another operand also names a bad register is the spec's D14, log entry 12). -/
def Obligations.OperandFetchPastTheTopFaults : Prop :=
  (∀ s : State, s.run = .running →
    ((s.mem.read s.pc ∈ [(130 : Byte), 162] ∧ 254 ≤ s.pc.toNat) ∨
      (s.mem.read s.pc ∈ [(69 : Byte), 70, 71] ∧ s.pc.toNat = 255)) →
    step s = .next { s with run := .faulted (.outOfRange .operandFetch 256) }) ∧
  (∀ (s t : State) (a : Nat), s.run = .running → step s = .next t →
    t.run = .faulted (.outOfRange .operandFetch a) → a = 256 ∧
    ((s.mem.read s.pc ∈ [(130 : Byte), 162] ∧ 254 ≤ s.pc.toNat) ∨
      (s.mem.read s.pc ∈ [(69 : Byte), 70, 71] ∧ s.pc.toNat = 255)))

/-- A register operand above 7 faults with the byte and no effect; MUL checks its first operand first;
LDI's literal is not checked (rules R53, R75, R133 (b); the fault instead of masking is the spec's D5,
log entry 5; the first of two bad operands being the one recorded is the spec's D14, log entry 12). It is
about exec, which does not fetch: at a `pc` where a step would fault on the operand fetch first, and so
record OperandFetch (rule R138), exec still answers this, the model's choice of log entry 15. -/
def Obligations.RegisterIndexAboveSevenFaults : Prop :=
  ∀ (s : State) (r o : Byte), 8 ≤ r.toNat →
    exec (.ldi r o) s = .next { s with run := .faulted (.outOfRange .registerIndex r.toNat) } ∧
    exec (.prn r) s = .next { s with run := .faulted (.outOfRange .registerIndex r.toNat) } ∧
    exec (.push r) s = .next { s with run := .faulted (.outOfRange .registerIndex r.toNat) } ∧
    exec (.pop r) s = .next { s with run := .faulted (.outOfRange .registerIndex r.toNat) } ∧
    exec (.mul r o) s = .next { s with run := .faulted (.outOfRange .registerIndex r.toNat) } ∧
    (o.toNat ≤ 7 →
      exec (.mul o r) s = .next { s with run := .faulted (.outOfRange .registerIndex r.toNat) })

/-- Where the successor address `pc + 1 + n` is above 255, a well-formed instruction other than HLT
keeps its whole effect (the one it has at `pc` 0), `pc` stays, and the reason carries that address
(rules R77, R133 (c); the fault instead of a wrap is the spec's D4, log entry 4). In a step that address
is always 256; it is 257 or 258 only where exec, which does not fetch, is asked at a `pc` where a step
would fault on the operand fetch first, the model's choice of log entry 15. -/
def Obligations.PcAdvancePastTheTopFaults : Prop :=
  ∀ (s : State) (i : Instr), i.WellFormed → i ≠ .hlt → 255 < s.pc.toNat + (encode i).length →
    ∃ u, exec i { s with pc := 0 } = .next u ∧ u.pc.toNat = (encode i).length ∧ u.run = s.run ∧
      exec i s = .next { u with
        pc := s.pc, run := .faulted (.outOfRange .pcAdvance (s.pc.toNat + (encode i).length)) }

/-- Taking a fault saves nothing and leaves `pc`: after an unknown opcode, an operand fetch or a register
index fault all but `run` is the state before the instruction; after an advance fault it is the state
after the effect of the instruction at `pc`, which ran with only the advance missing (rule R135). That an
operand fetch, a bad register index and an advance fault in this way is the spec's D3, D5 and D4 (log
entries 3, 5 and 4). -/
def Obligations.FaultEntryKeepsState : Prop :=
  ∀ (s t : State) (r : FaultReason), s.run = .running → step s = .next t → t.run = .faulted r →
    t.pc = s.pc ∧
    ((∀ a, r ≠ .outOfRange .pcAdvance a) → t = { s with run := .faulted r }) ∧
    (∀ a, r = .outOfRange .pcAdvance a → ∃ i u, HasCode s (encode i) ∧
      exec i { s with pc := 0 } = .next u ∧ u.run = .running ∧
      t = { u with pc := s.pc, run := .faulted r })

/-- `UnsupportedAluOperation` is the dispatcher's answer to a name outside its set, and no step of a
running engine ever ends in it (rules R105, R132). The closed set that makes it unreachable is the spec's
D8; that the dispatcher can be asked for a name outside the set is the model's choice (log entry 10). -/
def Obligations.UnsupportedAluOperationNeverOccurs : Prop :=
  (∀ (name : String) (a b : RegIdx) (s : State),
    alu (.unsupported name) a b s = .error (.unsupportedAluOperation name)) ∧
  (∀ (s t : State) (name : String), s.run = .running → step s = .next t →
    t.run ≠ .faulted (.unsupportedAluOperation name))

/-! ### Invariants -/

/-- Every step keeps memory in its canonical form: addresses strictly rising and below 256, no zero
listed (the form of the model's memory; rules R21, R30). -/
def Obligations.StepKeepsMemoryForm : Prop :=
  ∀ s t : State, s.mem.Wf → step s = .next t → t.mem.Wf

/-- Every step keeps the stop record sound: a halted engine stands at a HLT byte, and a recorded fault
has a value it can have at a `pc` where it can be raised (rules R130 to R133, R166; it rests on the
spec's D3, D4 and D5, log entries 3 to 5). -/
def Obligations.StepKeepsStopRecord : Prop :=
  ∀ s t : State, s.StopRecordOk → step s = .next t → t.StopRecordOk

/-- The state after reset meets both invariants, and so does the state after loading any image of at
most 256 bytes. -/
def Obligations.StartMeetsInvariants : Prop :=
  State.reset.Inv ∧
  ∀ (image : List Byte) (t : State), loadImage image State.reset = .next t → t.Inv

/-! ### Reset and load -/

/-- The reset values of every piece of state (rules R23, R160). That `SP` is register 7, the empty `out`
and `run = Running` are the spec's D1, D6 and D13 (log entries 1, 6 and 8). -/
def Obligations.ResetValues : Prop :=
  (∀ a : Byte, State.reset.mem.read a = 0) ∧
  (∀ i : RegIdx, i ≠ 7 → State.reset.reg i = 0) ∧
  State.reset.reg 7 = 0xF4 ∧ State.reset.sp = 0xF4 ∧
  State.reset.pc = 0 ∧ State.reset.run = .running ∧ State.reset.out = []

/-- The Loader writes the image from address 0 and nothing else: cell `k` is the `k`-th byte, every cell
after the image keeps its value, and registers, `pc`, `run` and `out` are not touched; after reset the
cells past the image are 0, and with the empty image the first step raises `UnknownOpcode(0)`
(rule R162). -/
def Obligations.LoadWritesTheImage : Prop :=
  (∀ (image : List Byte) (s : State), image.length ≤ 256 →
    ∃ t, loadImage image s = .next t ∧
      (∀ a : Byte, t.mem.read a = image[a.toNat]?.getD (s.mem.read a)) ∧
      t.x = s.x ∧ t.pc = s.pc ∧ t.run = s.run ∧ t.out = s.out) ∧
  (∀ (image : List Byte) (t : State) (a : Byte), loadImage image State.reset = .next t →
    image.length ≤ a.toNat → t.mem.read a = 0) ∧
  (∃ t, loadImage [] State.reset = .next t ∧
    step t = .next { t with run := .faulted (.unknownOpcode 0) })

/-- An image of more than 256 bytes is refused, and only such an image (rule R164; the spec's D10, log
entry 9). -/
def Obligations.LongImageIsRefused : Prop :=
  ∀ (image : List Byte) (s : State),
    loadImage image s = .refused (.imageTooLong image.length) ↔ 256 < image.length

/-! ### Memory and registers -/

/-- The memory interface: a read after a write to the same address gives the value written, and a write
changes no other address (rule R31). -/
def Obligations.MemoryReadAfterWrite : Prop :=
  ∀ (m : Memory) (a v : Byte),
    (m.write a v).read a = v ∧ ∀ b : Byte, b ≠ a → (m.write a v).read b = m.read b

/-- Canonical memories that read the same at every address are the same data (rule R30: the 256 cells
are all there is). -/
def Obligations.MemoryIsItsReads : Prop :=
  ∀ m m' : Memory, m.Wf → m'.Wf → (∀ a : Byte, m.read a = m'.read a) → m = m'

/-- A register write stores the value modulo 256 and changes no other register: an increment of 255
gives 0, a decrement of 0 gives 255, a product is reduced (rule R12). -/
def Obligations.RegisterWriteTruncates : Prop :=
  (∀ (s : State) (i : RegIdx) (v : Nat),
    ((s.setReg i (truncate v)).reg i).toNat = v % 256 ∧
    ∀ j : RegIdx, j ≠ i → (s.setReg i (truncate v)).reg j = s.reg j) ∧
  (∀ (s : State) (i : RegIdx), s.reg i = 255 → (s.setReg i (s.reg i + 1)).reg i = 0) ∧
  (∀ (s : State) (i : RegIdx), s.reg i = 0 → (s.setReg i (s.reg i - 1)).reg i = 255) ∧
  (∀ v w : Byte, (aluResult .mul v w).toNat = v.toNat * w.toNat % 256)

/-- The only addresses a step reads are `pc`, `pc + 1`, `pc + 2` and `SP`: memories that agree there, and
states that agree in all else, give the same registers, `pc`, `run` and `out`, and each address is
left alone in both or ends up the same in both (rule R32). -/
def Obligations.OnlyListedAddressesAreRead : Prop :=
  ∀ (s t : State) (m : Memory), s.run = .running →
    (∀ k ≤ 2, s.pc.toNat + k ≤ 255 →
      m.read (BitVec.ofNat 8 (s.pc.toNat + k)) = s.mem.read (BitVec.ofNat 8 (s.pc.toNat + k))) →
    m.read s.sp = s.mem.read s.sp → step s = .next t →
    ∃ t', step { s with mem := m } = .next t' ∧
      t'.x = t.x ∧ t'.pc = t.pc ∧ t'.run = t.run ∧ t'.out = t.out ∧
      ∀ a : Byte, t'.mem.read a = t.mem.read a ∨
        (t'.mem.read a = m.read a ∧ t.mem.read a = s.mem.read a)

/-- Of the six instructions only PUSH writes memory, and it writes only the byte below `SP`
(rules R21, R32, R36; opcode 69 is the spec's D2, log entry 2). -/
def Obligations.OnlyPushWritesMemory : Prop :=
  ∀ (s t : State) (a : Byte), step s = .next t → t.mem.read a ≠ s.mem.read a →
    s.run = .running ∧ s.mem.read s.pc = 69 ∧ a = s.sp - 1

/-- A byte that PUSH stores is the byte every later fetch of that address gives, the next instruction's
opcode and operands included, while the PUSH itself runs from the bytes fetched before its store
(rule R42; opcode 69 is the spec's D2, log entry 2). -/
def Obligations.FetchSeesThePushedByte : Prop :=
  ∀ (s : State) (i : RegIdx), s.run = .running → s.pc.toNat ≤ 253 →
    s.mem.read s.pc = 69 → s.mem.read (s.pc + 1) = regByte i →
    ∃ t, step s = .next t ∧ t.run = .running ∧ t.pc = s.pc + 2 ∧
      ∀ k ≤ 2, t.pc.toNat + k ≤ 255 →
        t.codeBytes[k]? = some
          (if BitVec.ofNat 8 (t.pc.toNat + k) = s.sp - 1 then s.reg i
           else s.mem.read (BitVec.ofNat 8 (t.pc.toNat + k)))

/-! ### The instructions -/

/-- LDI completes: for every register and literal, where the successor address is in memory, the target
register equals the literal, `pc` has advanced by 3, and nothing else has changed (rules R90, R91). -/
def Obligations.LdiLoadsTheLiteral : Prop :=
  ∀ (s : State) (i : RegIdx) (imm : Byte), s.pc.toNat ≤ 252 →
    ∃ t, exec (.ldi (regByte i) imm) s = .next t ∧
      t.reg i = imm ∧ (∀ j : RegIdx, j ≠ i → t.reg j = s.reg j) ∧
      t.pc.toNat = s.pc.toNat + 3 ∧ t.mem = s.mem ∧ t.out = s.out ∧ t.run = s.run

/-- MUL completes: register A equals the product modulo 256, with A and B any registers, the same one
included; `pc` advances by exactly 3 and nothing else changes (rule R103). -/
def Obligations.MulMultipliesModulo256 : Prop :=
  ∀ (s : State) (a b : RegIdx), s.pc.toNat ≤ 252 →
    ∃ t, exec (.mul (regByte a) (regByte b)) s = .next t ∧
      (t.reg a).toNat = (s.reg a).toNat * (s.reg b).toNat % 256 ∧
      (∀ j : RegIdx, j ≠ a → t.reg j = s.reg j) ∧
      t.pc.toNat = s.pc.toNat + 3 ∧ t.mem = s.mem ∧ t.out = s.out ∧ t.run = s.run

/-- PRN completes: the register's value is appended to the output stream, `pc` advances by 2, and
nothing else changes (rule R95; the stream is the spec's D6, log entry 6). -/
def Obligations.PrnEmitsTheRegister : Prop :=
  ∀ (s : State) (i : RegIdx), s.pc.toNat ≤ 253 →
    ∃ t, exec (.prn (regByte i)) s = .next t ∧
      t.out = s.out ++ [s.reg i] ∧ t.x = s.x ∧
      t.pc.toNat = s.pc.toNat + 2 ∧ t.mem = s.mem ∧ t.run = s.run

/-- PUSH completes: the byte at `(S-1) mod 256` equals the pre-push value of the register, `SP` itself
included, the stack pointer is `(S-1) mod 256`, `pc` advances by exactly 2, and every other register
and byte is unchanged (rule R111). -/
def Obligations.PushStoresBelowTheStackPointer : Prop :=
  ∀ (s : State) (i : RegIdx), s.pc.toNat ≤ 253 →
    ∃ t, exec (.push (regByte i)) s = .next t ∧
      t.mem.read (BitVec.ofNat 8 ((s.sp.toNat + 255) % 256)) = s.reg i ∧
      (∀ a : Byte, a ≠ BitVec.ofNat 8 ((s.sp.toNat + 255) % 256) → t.mem.read a = s.mem.read a) ∧
      t.sp.toNat = (s.sp.toNat + 255) % 256 ∧
      (∀ j : RegIdx, j ≠ spIndex → t.reg j = s.reg j) ∧
      t.pc.toNat = s.pc.toNat + 2 ∧ t.out = s.out ∧ t.run = s.run

/-- POP completes: for a register other than `SP`, it receives the byte at `SP` and `SP` is incremented
modulo 256; popping into `SP` gives that byte plus 1; `pc` advances by 2, memory and every other
register are unchanged (rule R112; POP is INFERRED by the spec, D17 and D20, log entry 11). -/
def Obligations.PopLoadsAtTheStackPointer : Prop :=
  ∀ (s : State) (i : RegIdx), s.pc.toNat ≤ 253 →
    ∃ t, exec (.pop (regByte i)) s = .next t ∧
      (i ≠ spIndex → t.reg i = s.mem.read s.sp ∧ t.sp.toNat = (s.sp.toNat + 1) % 256) ∧
      (i = spIndex → t.sp.toNat = ((s.mem.read s.sp).toNat + 1) % 256) ∧
      (∀ j : RegIdx, j ≠ i → j ≠ spIndex → t.reg j = s.reg j) ∧
      t.pc.toNat = s.pc.toNat + 2 ∧ t.mem = s.mem ∧ t.out = s.out ∧ t.run = s.run

/-- HLT completes in every state, at address 255 too: the run state is `Halted`, nothing else changes,
`pc` still holds the address of the HLT; at a HLT byte no later byte is fetched, so the step is the
same whatever stands after it, and nothing wakes the engine (rules R78, R120). That only reset leaves a
terminal state is the spec's D12; that a step there answers the same state is DEDUCED, log entry 7. -/
def Obligations.HltHaltsWithNothingElseChanged : Prop :=
  (∀ s : State, exec .hlt s = .next { s with run := .halted }) ∧
  (∀ s : State, s.run = .running → s.mem.read s.pc = 1 →
    step s = .next { s with run := .halted } ∧
    ∀ k : Nat, Host.Core.run Sys2Proof.core (k + 1) s = .next { s with run := .halted })

/-- If PUSH of a register and later POP of the same register run, with `SP` as PUSH left it and the
pushed byte not written in between, the register and `SP` are back: for every register but `SP`. For
`SP` the pair gives `SP + 1` (rule R114; POP is INFERRED by the spec, log entry 11). -/
def Obligations.PopUndoesPush : Prop :=
  ∀ (s t u w : State) (i : RegIdx), s.pc.toNat ≤ 253 → u.pc.toNat ≤ 253 →
    exec (.push (regByte i)) s = .next t → u.sp = t.sp → u.mem.read t.sp = t.mem.read t.sp →
    exec (.pop (regByte i)) u = .next w →
    (i ≠ spIndex → w.reg i = s.reg i ∧ w.sp = s.sp) ∧ (i = spIndex → w.sp = s.sp + 1)

/-- A stack access never faults, at any value of `SP`: PUSH at `SP` 0 writes address 255 and leaves 255,
POP at `SP` 255 reads address 255 and leaves 0 (into a register other than `SP`), and PUSH and POP that
can advance leave the run state as it was (rule R36, with R112 (c) for POP into `SP`). -/
def Obligations.StackAddressesWrap : Prop :=
  (∀ (s : State) (i : RegIdx), s.pc.toNat ≤ 253 → s.sp = 0 →
    ∃ t, exec (.push (regByte i)) s = .next t ∧ t.mem.read 255 = s.reg i ∧ t.sp = 255) ∧
  (∀ (s : State) (i : RegIdx), s.pc.toNat ≤ 253 → s.sp = 255 → i ≠ spIndex →
    ∃ t, exec (.pop (regByte i)) s = .next t ∧ t.reg i = s.mem.read 255 ∧ t.sp = 0) ∧
  (∀ (s : State) (i : RegIdx), s.pc.toNat ≤ 253 →
    ∃ t u, exec (.push (regByte i)) s = .next t ∧ t.run = s.run ∧
      exec (.pop (regByte i)) s = .next u ∧ u.run = s.run)

/-- `SP` resets to 0xF4; with `SP` at that value a PUSH writes address 0xF3 and leaves `SP` 0xF3, and a POP,
with nothing pushed, reads the byte at 0xF4 like any other POP (rule R24; what a POP does is INFERRED by
the spec, D17 and D20, log entry 11). -/
def Obligations.FirstPushGoesToF3 : Prop :=
  State.reset.sp = 0xF4 ∧
  ∀ (s : State) (i : RegIdx), s.sp = State.reset.sp → s.pc.toNat ≤ 253 →
    (∃ t, exec (.push (regByte i)) s = .next t ∧ t.sp = 0xF3 ∧ t.mem.read 0xF3 = s.reg i) ∧
    (∃ u, exec (.pop (regByte i)) s = .next u ∧
      (i ≠ spIndex → u.reg i = s.mem.read 0xF4 ∧ u.sp = 0xF5) ∧
      (i = spIndex → u.sp = s.mem.read 0xF4 + 1))

/-- The ALU: MUL and ADD put the exact result modulo 256 into register A and touch nothing else (rules
R100, R104, R106; what ADD computes is the spec's D9, log entry 10); MUL is the only ALU instruction
(rule R82). -/
def Obligations.AluWritesOnlyRegisterA : Prop :=
  (∀ (s : State) (a b : RegIdx), ∃ t u,
    alu (.supported .mul) a b s = .ok t ∧ alu (.supported .add) a b s = .ok u ∧
    (t.reg a).toNat = (s.reg a).toNat * (s.reg b).toNat % 256 ∧
    (u.reg a).toNat = ((s.reg a).toNat + (s.reg b).toNat) % 256 ∧
    (∀ j : RegIdx, j ≠ a → t.reg j = s.reg j ∧ u.reg j = s.reg j) ∧
    t.mem = s.mem ∧ t.pc = s.pc ∧ t.run = s.run ∧ t.out = s.out ∧
    u.mem = s.mem ∧ u.pc = s.pc ∧ u.run = s.run ∧ u.out = s.out) ∧
  (∀ i : Instr, isAluOperation i = true ↔ ∃ a b, i = .mul a b)

/-! ### Frames -/

/-- What LDI and MUL leave alone whenever they give a next state, a faulted one included: every register
but the one their first operand names, every byte of memory, the output stream; the run state stays or
becomes a fault (rules R14, R90, R102). -/
def Obligations.FrameOfLdiAndMul : Prop :=
  ∀ (s t : State) (r o : Byte), exec (.ldi r o) s = .next t ∨ exec (.mul r o) s = .next t →
    (∀ j : RegIdx, regByte j ≠ r → t.reg j = s.reg j) ∧
    (∀ a : Byte, t.mem.read a = s.mem.read a) ∧ t.out = s.out ∧
    (t.run = s.run ∨ ∃ f, t.run = .faulted f)

/-- What PRN and HLT leave alone whenever they give a next state: every register and every byte of
memory; HLT leaves the output stream too, PRN only appends to it; the run state is as before, halted
(HLT) or faulted (PRN) (rules R14, R95, R120). -/
def Obligations.FrameOfPrnAndHlt : Prop :=
  (∀ (s t : State) (r : Byte), exec (.prn r) s = .next t →
    (∀ j : RegIdx, t.reg j = s.reg j) ∧ (∀ a : Byte, t.mem.read a = s.mem.read a) ∧
    s.out <+: t.out ∧ (t.run = s.run ∨ ∃ f, t.run = .faulted f)) ∧
  (∀ s t : State, exec .hlt s = .next t →
    (∀ j : RegIdx, t.reg j = s.reg j) ∧ (∀ a : Byte, t.mem.read a = s.mem.read a) ∧
    t.out = s.out ∧ t.run = .halted)

/-- What PUSH leaves alone whenever it gives a next state: every register but `SP`, every byte of memory
but the one at the address it computes, the output stream; the run state stays or becomes a fault
(rules R14, R110, R116). -/
def Obligations.FrameOfPush : Prop :=
  ∀ (s t : State) (r : Byte), exec (.push r) s = .next t →
    (∀ j : RegIdx, j ≠ spIndex → t.reg j = s.reg j) ∧
    (∀ a b : Byte, pushAddress s = a → b ≠ a → t.mem.read b = s.mem.read b) ∧
    t.out = s.out ∧ (t.run = s.run ∨ ∃ f, t.run = .faulted f)

/-- What POP leaves alone whenever it gives a next state: every register but the one its operand names
and `SP`, every byte of memory, the output stream; the run state stays or becomes a fault (rules R14,
R112). -/
def Obligations.FrameOfPop : Prop :=
  ∀ (s t : State) (r : Byte), exec (.pop r) s = .next t →
    (∀ j : RegIdx, regByte j ≠ r → j ≠ spIndex → t.reg j = s.reg j) ∧
    (∀ a : Byte, t.mem.read a = s.mem.read a) ∧ t.out = s.out ∧
    (t.run = s.run ∨ ∃ f, t.run = .faulted f)

/-! ### Output -/

/-- A step leaves the output stream as it was or appends one value, and appends only at a PRN of the
register whose value it is (rules R22, R95; the stream is the spec's D6, log entry 6). -/
def Obligations.OutputGrowsOnlyByPrn : Prop :=
  ∀ s t : State, step s = .next t → t.out = s.out ∨
    (s.run = .running ∧ s.mem.read s.pc = 71 ∧
      ∃ i : RegIdx, s.mem.read (s.pc + 1) = regByte i ∧ t.out = s.out ++ [s.reg i])

/-- No instruction reads the output stream: a run of any length is the same whatever was emitted before
it, apart from that earlier output (rule R22; the stream is the spec's D6, log entry 6). -/
def Obligations.OutputIsNeverRead : Prop :=
  ∀ (s t : State) (k : Nat) (earlier : List Byte), Host.Core.run Sys2Proof.core k s = .next t →
    Host.Core.run Sys2Proof.core k { s with out := earlier ++ s.out } =
      .next { t with out := earlier ++ t.out }

/-! ### The assembly table -/

/-- The table of rule R59: each row's bytes are the encoding of the instruction it names and decode back to
it, for every register and literal; every well-formed instruction is in some row; `SP` is another spelling
of R7; and of the two registers of MUL the first-written one, A, is the destination: a running engine at
the bytes 162, a, b puts the product into A and leaves every other register (opcodes 69 and 70 are the
spec's D2, log entry 2; that `SP` is R7 is D1, log entry 1). -/
def Obligations.AssemblyTableIsTheEncoding : Prop :=
  (∀ (r a b : RegIdx) (imm : Byte), ∀ row ∈ tableR59 r a b imm,
    row.1.WellFormed ∧ encode row.1 = row.2 ∧
    ∀ rest : List Byte, decode (row.2 ++ rest) = .ok (row.1, rest)) ∧
  (∀ i : Instr, i.WellFormed → ∃ r a b imm, (i, encode i) ∈ tableR59 r a b imm) ∧
  regByte spIndex = 7 ∧
  (∀ (s : State) (a b : RegIdx), s.run = .running → s.pc.toNat ≤ 252 →
    HasCode s [162, regByte a, regByte b] →
    ∃ t, step s = .next t ∧ t.run = .running ∧ t.pc.toNat = s.pc.toNat + 3 ∧
      (t.reg a).toNat = (s.reg a).toNat * (s.reg b).toNat % 256 ∧
      (∀ j : RegIdx, j ≠ a → t.reg j = s.reg j) ∧ t.mem = s.mem ∧ t.out = s.out)
end

