-- ==== Sys2Proof/Laws/Decode.lean ====
section
/-! SUPPORT. What the decoder can answer, said once (spec/30_encoding.md rules R50 to R58). -/

namespace Sys2Proof

/-! The operand count of each supported opcode (rule R54). -/

@[simp] theorem operandCount_opcHlt : operandCount opcHlt = 0 := by decide
@[simp] theorem operandCount_opcPush : operandCount opcPush = 1 := by decide
@[simp] theorem operandCount_opcPop : operandCount opcPop = 1 := by decide
@[simp] theorem operandCount_opcPrn : operandCount opcPrn = 1 := by decide
@[simp] theorem operandCount_opcLdi : operandCount opcLdi = 2 := by decide
@[simp] theorem operandCount_opcMul : operandCount opcMul = 2 := by decide

/-- Everything the identity of an opcode byte can be. -/
theorem identity_cases (op : Byte) :
    (op = opcHlt ∧ identity op = .hlt) ∨ (op = opcPush ∧ identity op = .push) ∨
    (op = opcPop ∧ identity op = .pop) ∨ (op = opcPrn ∧ identity op = .prn) ∨
    (op = opcLdi ∧ identity op = .ldi) ∨ (op = opcMul ∧ identity op = .mul) ∨
    (op ∉ [(1 : Byte), 69, 70, 71, 130, 162] ∧ identity op = .unknown op) := by
  revert op; decide

theorem decode_hlt (rest : List Byte) : decode (opcHlt :: rest) = .ok (.hlt, rest) := rfl
theorem decode_push (rest : List Byte) : decode (opcPush :: rest) = decodeF1 .push rest := rfl
theorem decode_pop (rest : List Byte) : decode (opcPop :: rest) = decodeF1 .pop rest := rfl
theorem decode_prn (rest : List Byte) : decode (opcPrn :: rest) = decodeF1 .prn rest := rfl
theorem decode_ldi (rest : List Byte) : decode (opcLdi :: rest) = decodeF2 .ldi rest := rfl
theorem decode_mul (rest : List Byte) : decode (opcMul :: rest) = decodeF2 .mul rest := rfl

theorem decode_unknown {op : Byte} (h : op ∉ [(1 : Byte), 69, 70, 71, 130, 162]) (rest : List Byte) :
    decode (op :: rest) = .error (.unknownOpcode op) := by
  rcases identity_cases op with ⟨rfl, _⟩ | ⟨rfl, _⟩ | ⟨rfl, _⟩ | ⟨rfl, _⟩ | ⟨rfl, _⟩ | ⟨rfl, _⟩ | ⟨_, e⟩
  · exact absurd (by decide) h
  · exact absurd (by decide) h
  · exact absurd (by decide) h
  · exact absurd (by decide) h
  · exact absurd (by decide) h
  · exact absurd (by decide) h
  · simp [decode, e]

theorem decodeF1_ok {build : Byte → Instr} {bs rest : List Byte} {i : Instr}
    (h : decodeF1 build bs = .ok (i, rest)) : ∃ r, bs = r :: rest ∧ i = build r := by
  match bs, h with
  | r :: bs, h =>
    simp only [decodeF1, Except.ok.injEq, Prod.mk.injEq] at h
    obtain ⟨hi, hr⟩ := h
    exact ⟨r, by rw [hr], hi.symm⟩

theorem decodeF2_ok {build : Byte → Byte → Instr} {bs rest : List Byte} {i : Instr}
    (h : decodeF2 build bs = .ok (i, rest)) : ∃ o1 o2, bs = o1 :: o2 :: rest ∧ i = build o1 o2 := by
  match bs, h with
  | o1 :: o2 :: bs, h =>
    simp only [decodeF2, Except.ok.injEq, Prod.mk.injEq] at h
    obtain ⟨hi, hr⟩ := h
    exact ⟨o1, o2, by rw [hr], hi.symm⟩

/-- The length of an encoding is 1 plus the operand count of its opcode (rule R58). -/
theorem encode_length (i : Instr) : (encode i).length = 1 + operandCount i.opcode := by
  cases i <;> simp [encode, Instr.opcode]

end Sys2Proof
end

