-- ==== Sys2Proof/Laws/State.lean ====
section
/-! SUPPORT. One lemma per field per update of the state, true by rfl; and the register file's laws
(spec/10_state.md rules R11, R12). -/

namespace Sys2Proof.Machine

variable (s : State)

@[simp] theorem State.setReg_mem (i : RegIdx) (v : Byte) : (s.setReg i v).mem = s.mem := rfl
@[simp] theorem State.setReg_x (i : RegIdx) (v : Byte) : (s.setReg i v).x = s.x.set i v := rfl
@[simp] theorem State.setReg_pc (i : RegIdx) (v : Byte) : (s.setReg i v).pc = s.pc := rfl
@[simp] theorem State.setReg_run (i : RegIdx) (v : Byte) : (s.setReg i v).run = s.run := rfl
@[simp] theorem State.setReg_out (i : RegIdx) (v : Byte) : (s.setReg i v).out = s.out := rfl

@[simp] theorem State.setSp_mem (v : Byte) : (s.setSp v).mem = s.mem := rfl
@[simp] theorem State.setSp_x (v : Byte) : (s.setSp v).x = s.x.set spIndex v := rfl
@[simp] theorem State.setSp_pc (v : Byte) : (s.setSp v).pc = s.pc := rfl
@[simp] theorem State.setSp_run (v : Byte) : (s.setSp v).run = s.run := rfl
@[simp] theorem State.setSp_out (v : Byte) : (s.setSp v).out = s.out := rfl

@[simp] theorem State.store_mem (a v : Byte) : (s.store a v).mem = s.mem.write a v := rfl
@[simp] theorem State.store_x (a v : Byte) : (s.store a v).x = s.x := rfl
@[simp] theorem State.store_pc (a v : Byte) : (s.store a v).pc = s.pc := rfl
@[simp] theorem State.store_run (a v : Byte) : (s.store a v).run = s.run := rfl
@[simp] theorem State.store_out (a v : Byte) : (s.store a v).out = s.out := rfl

@[simp] theorem State.emit_mem (v : Byte) : (s.emit v).mem = s.mem := rfl
@[simp] theorem State.emit_x (v : Byte) : (s.emit v).x = s.x := rfl
@[simp] theorem State.emit_pc (v : Byte) : (s.emit v).pc = s.pc := rfl
@[simp] theorem State.emit_run (v : Byte) : (s.emit v).run = s.run := rfl
@[simp] theorem State.emit_out (v : Byte) : (s.emit v).out = s.out ++ [v] := rfl

@[simp] theorem State.halt_mem : s.halt.mem = s.mem := rfl
@[simp] theorem State.halt_x : s.halt.x = s.x := rfl
@[simp] theorem State.halt_pc : s.halt.pc = s.pc := rfl
@[simp] theorem State.halt_run : s.halt.run = .halted := rfl
@[simp] theorem State.halt_out : s.halt.out = s.out := rfl

@[simp] theorem State.raise_mem (r : FaultReason) : (s.raise r).mem = s.mem := rfl
@[simp] theorem State.raise_x (r : FaultReason) : (s.raise r).x = s.x := rfl
@[simp] theorem State.raise_pc (r : FaultReason) : (s.raise r).pc = s.pc := rfl
@[simp] theorem State.raise_run (r : FaultReason) : (s.raise r).run = .faulted r := rfl
@[simp] theorem State.raise_out (r : FaultReason) : (s.raise r).out = s.out := rfl

/-- A state with the registers of `s` reads the registers of `s`. -/
@[simp] theorem State.reg_mk (m : Memory) (p : Byte) (r : RunState) (o : List Byte) (i : RegIdx) :
    State.reg ⟨m, s.x, p, r, o⟩ i = s.reg i := rfl

@[simp] theorem State.sp_mk (m : Memory) (p : Byte) (r : RunState) (o : List Byte) :
    State.sp ⟨m, s.x, p, r, o⟩ = s.sp := rfl

/-- States with the same registers read the same. -/
theorem State.reg_congr {s t : State} (h : s.x = t.x) (i : RegIdx) : s.reg i = t.reg i := by
  simp [State.reg, h]

theorem State.sp_congr {s t : State} (h : s.x = t.x) : s.sp = t.sp := State.reg_congr h spIndex

@[simp] theorem State.reg_raise (r : FaultReason) (i : RegIdx) : (s.raise r).reg i = s.reg i := rfl
@[simp] theorem State.reg_halt (i : RegIdx) : s.halt.reg i = s.reg i := rfl
@[simp] theorem State.reg_emit (v : Byte) (i : RegIdx) : (s.emit v).reg i = s.reg i := rfl
@[simp] theorem State.reg_store (a v : Byte) (i : RegIdx) : (s.store a v).reg i = s.reg i := rfl
@[simp] theorem State.sp_raise (r : FaultReason) : (s.raise r).sp = s.sp := rfl
@[simp] theorem State.sp_halt : s.halt.sp = s.sp := rfl
@[simp] theorem State.sp_emit (v : Byte) : (s.emit v).sp = s.sp := rfl
@[simp] theorem State.sp_store (a v : Byte) : (s.store a v).sp = s.sp := rfl

/-- A register read after a register write. -/
theorem State.reg_setReg (i j : RegIdx) (v : Byte) :
    (s.setReg i v).reg j = if j = i then v else s.reg j := by
  by_cases h : j = i
  · subst h; simp [State.reg]
  · have : i.val ≠ j.val := fun e => h (Fin.ext e.symm)
    simp [State.reg, this, h]

theorem State.reg_setReg_same (i : RegIdx) (v : Byte) : (s.setReg i v).reg i = v := by
  simp [State.reg_setReg]

theorem State.reg_setReg_ne {i j : RegIdx} (h : j ≠ i) (v : Byte) :
    (s.setReg i v).reg j = s.reg j := by
  simp [State.reg_setReg, h]

theorem State.reg_setSp (j : RegIdx) (v : Byte) :
    (s.setSp v).reg j = if j = spIndex then v else s.reg j := s.reg_setReg spIndex j v

@[simp] theorem State.sp_setSp (v : Byte) : (s.setSp v).sp = v := s.reg_setReg_same spIndex v

theorem State.sp_setReg (i : RegIdx) (v : Byte) :
    (s.setReg i v).sp = if spIndex = i then v else s.sp := s.reg_setReg i spIndex v

end Sys2Proof.Machine
end

