-- ==== Sys2Proof/Laws/Ops.lean ====
section
/-! SUPPORT. What each shared operation can do: the advance of `pc` (spec/40_cycle_and_decode.md rule
R77), the end of a step, the register-operand check (rule R75). -/

namespace Sys2Proof.Machine

variable (s : State)

theorem State.advance_of_le {n : Nat} (h : s.pc.toNat + 1 + n ≤ 255) :
    s.advance n = { s with pc := BitVec.ofNat 8 (s.pc.toNat + 1 + n) } := by
  simp [State.advance, h]

theorem State.advance_of_gt {n : Nat} (h : 255 < s.pc.toNat + 1 + n) :
    s.advance n = s.raise (.outOfRange .pcAdvance (s.pc.toNat + 1 + n)) := by
  simp [State.advance, Nat.not_le.mpr h]

@[simp] theorem State.advance_mem (n : Nat) : (s.advance n).mem = s.mem := by
  unfold State.advance; dsimp only; split <;> rfl

@[simp] theorem State.advance_x (n : Nat) : (s.advance n).x = s.x := by
  unfold State.advance; dsimp only; split <;> rfl

@[simp] theorem State.advance_out (n : Nat) : (s.advance n).out = s.out := by
  unfold State.advance; dsimp only; split <;> rfl

@[simp] theorem State.reg_advance (n : Nat) (i : RegIdx) : (s.advance n).reg i = s.reg i :=
  State.reg_congr (s.advance_x n) i

@[simp] theorem State.sp_advance (n : Nat) : (s.advance n).sp = s.sp :=
  State.sp_congr (s.advance_x n)

/-- Everything an advance can do to `pc` and `run`: move `pc` and keep `run`, or fault and keep `pc`. -/
theorem State.advance_cases (n : Nat) :
    (s.pc.toNat + 1 + n ≤ 255 ∧ (s.advance n).run = s.run ∧
      (s.advance n).pc.toNat = s.pc.toNat + 1 + n) ∨
    (255 < s.pc.toNat + 1 + n ∧ (s.advance n).pc = s.pc ∧
      (s.advance n).run = .faulted (.outOfRange .pcAdvance (s.pc.toNat + 1 + n))) := by
  by_cases h : s.pc.toNat + 1 + n ≤ 255
  · left
    rw [s.advance_of_le h]
    refine ⟨h, rfl, ?_⟩
    simp only [BitVec.toNat_ofNat]; omega
  · right
    have h := Nat.lt_of_not_le h
    rw [s.advance_of_gt h]
    exact ⟨h, rfl, rfl⟩

/-- An advance keeps the run state or faults. -/
theorem State.advance_run (n : Nat) :
    (s.advance n).run = s.run ∨ ∃ f, (s.advance n).run = .faulted f := by
  rcases s.advance_cases n with ⟨_, h, _⟩ | ⟨_, _, h⟩
  · exact .inl h
  · exact .inr ⟨_, h⟩

@[simp] theorem complete_ok (op : Byte) (t : State) :
    complete op s (.ok t) = .next (t.advance (operandCount op)) := rfl

@[simp] theorem complete_error (op : Byte) (r : FaultReason) :
    complete op s (.error r) = .next (s.raise r) := rfl

/-- A register operand is that register (rule R53). -/
@[simp] theorem regOperand_ofNat (i : RegIdx) : regOperand (BitVec.ofNat 8 i.val) = .ok i := by
  have h : i.val < 8 := i.isLt
  have e : (BitVec.ofNat 8 i.val).toNat = i.val := by
    rw [BitVec.toNat_ofNat]; omega
  simp [regOperand, e, h]

/-- A legal register byte is the number of a register. -/
theorem exists_reg_of_le {r : Byte} (h : r.toNat ≤ 7) : ∃ i : RegIdx, r = BitVec.ofNat 8 i.val :=
  ⟨⟨r.toNat, by omega⟩, by simp⟩

/-- A byte above 7 is no register (rule R75). -/
theorem regOperand_of_ge {r : Byte} (h : 8 ≤ r.toNat) :
    regOperand r = .error (.outOfRange .registerIndex r.toNat) := by
  simp [regOperand, Nat.not_lt.mpr h]

/-- Everything the register-operand check can answer. -/
theorem regOperand_cases (r : Byte) :
    (∃ i : RegIdx, r = BitVec.ofNat 8 i.val ∧ regOperand r = .ok i) ∨
    (8 ≤ r.toNat ∧ regOperand r = .error (.outOfRange .registerIndex r.toNat)) := by
  by_cases h : r.toNat < 8
  · exact .inl ⟨⟨r.toNat, h⟩, by simp, by simp [regOperand, h]⟩
  · exact .inr ⟨Nat.le_of_not_lt h, regOperand_of_ge (Nat.le_of_not_lt h)⟩

end Sys2Proof.Machine
end

