-- ==== Sys2Proof/Laws/Stack.lean ====
section
/-! SUPPORT. The fields of the two stack effects (spec/44_stack.md rules R110, R112). -/

namespace Sys2Proof.Machine

variable (s : State) (i : RegIdx)

@[simp] theorem pushEffect_mem :
    (pushEffect i s).mem = s.mem.write (pushAddress s) (s.reg i) := rfl
@[simp] theorem pushEffect_pc : (pushEffect i s).pc = s.pc := rfl
@[simp] theorem pushEffect_run : (pushEffect i s).run = s.run := rfl
@[simp] theorem pushEffect_out : (pushEffect i s).out = s.out := rfl
@[simp] theorem pushEffect_sp : (pushEffect i s).sp = pushAddress s :=
  s.reg_setReg_same spIndex _

theorem pushEffect_reg_ne {j : RegIdx} (h : j ≠ spIndex) : (pushEffect i s).reg j = s.reg j :=
  s.reg_setReg_ne h _

@[simp] theorem popEffect_mem : (popEffect i s).mem = s.mem := rfl
@[simp] theorem popEffect_pc : (popEffect i s).pc = s.pc := rfl
@[simp] theorem popEffect_run : (popEffect i s).run = s.run := rfl
@[simp] theorem popEffect_out : (popEffect i s).out = s.out := rfl

theorem popEffect_sp :
    (popEffect i s).sp = (if spIndex = i then s.mem.read s.sp else s.sp) + 1 := by
  simp [popEffect, popAddress, State.sp_setReg]

theorem popEffect_reg_target (h : i ≠ spIndex) : (popEffect i s).reg i = s.mem.read s.sp := by
  simp [popEffect, popAddress, State.reg_setSp, h, State.reg_setReg]

theorem popEffect_reg_ne {j : RegIdx} (hi : j ≠ i) (h : j ≠ spIndex) :
    (popEffect i s).reg j = s.reg j := by
  simp [popEffect, State.reg_setSp, h, State.reg_setReg, hi]

end Sys2Proof.Machine
end

