-- ==== Sys2Proof/Laws/Exec.lean ====
section
/-! SUPPORT. What each meaning can do, said once per instruction: the effect and the advance for a
register operand, the fault for a byte above 7 (spec/40_cycle_and_decode.md rules R75 to R77). -/

namespace Sys2Proof.Machine

variable {s t : State}

theorem exec_ldi_cases {r imm : Byte} (h : exec (.ldi r imm) s = .next t) :
    (8 ≤ r.toNat ∧ t = s.raise (.outOfRange .registerIndex r.toNat)) ∨
    (∃ i : RegIdx, r = BitVec.ofNat 8 i.val ∧ t = (s.setReg i imm).advance 2) := by
  rcases regOperand_cases r with ⟨i, hr, e⟩ | ⟨hr, e⟩ <;>
    simp [exec, execLdi, e, Except.map, literalOperand] at h
  · exact .inr ⟨i, hr, h.symm⟩
  · exact .inl ⟨hr, h.symm⟩

theorem exec_prn_cases {r : Byte} (h : exec (.prn r) s = .next t) :
    (8 ≤ r.toNat ∧ t = s.raise (.outOfRange .registerIndex r.toNat)) ∨
    (∃ i : RegIdx, r = BitVec.ofNat 8 i.val ∧ t = (s.emit (s.reg i)).advance 1) := by
  rcases regOperand_cases r with ⟨i, hr, e⟩ | ⟨hr, e⟩ <;>
    simp [exec, execPrn, e, Except.map] at h
  · exact .inr ⟨i, hr, h.symm⟩
  · exact .inl ⟨hr, h.symm⟩

theorem exec_push_cases {r : Byte} (h : exec (.push r) s = .next t) :
    (8 ≤ r.toNat ∧ t = s.raise (.outOfRange .registerIndex r.toNat)) ∨
    (∃ i : RegIdx, r = BitVec.ofNat 8 i.val ∧ t = (pushEffect i s).advance 1) := by
  rcases regOperand_cases r with ⟨i, hr, e⟩ | ⟨hr, e⟩ <;>
    simp [exec, execPush, e, Except.map] at h
  · exact .inr ⟨i, hr, h.symm⟩
  · exact .inl ⟨hr, h.symm⟩

theorem exec_pop_cases {r : Byte} (h : exec (.pop r) s = .next t) :
    (8 ≤ r.toNat ∧ t = s.raise (.outOfRange .registerIndex r.toNat)) ∨
    (∃ i : RegIdx, r = BitVec.ofNat 8 i.val ∧ t = (popEffect i s).advance 1) := by
  rcases regOperand_cases r with ⟨i, hr, e⟩ | ⟨hr, e⟩ <;>
    simp [exec, execPop, e, Except.map] at h
  · exact .inr ⟨i, hr, h.symm⟩
  · exact .inl ⟨hr, h.symm⟩

theorem exec_mul_cases {a b : Byte} (h : exec (.mul a b) s = .next t) :
    (8 ≤ a.toNat ∧ t = s.raise (.outOfRange .registerIndex a.toNat)) ∨
    (a.toNat ≤ 7 ∧ 8 ≤ b.toNat ∧ t = s.raise (.outOfRange .registerIndex b.toNat)) ∨
    (∃ i j : RegIdx, a = BitVec.ofNat 8 i.val ∧ b = BitVec.ofNat 8 j.val ∧
      t = (s.setReg i (aluResult .mul (s.reg i) (s.reg j))).advance 2) := by
  rcases regOperand_cases a with ⟨i, ha, e⟩ | ⟨ha, e⟩
  · have ha' : a.toNat ≤ 7 := by
      have := i.isLt
      rw [ha, BitVec.toNat_ofNat]; omega
    rcases regOperand_cases b with ⟨j, hb, e'⟩ | ⟨hb, e'⟩ <;>
      simp [exec, execMul, e, e', Except.bind, alu] at h
    · exact .inr (.inr ⟨i, j, ha, hb, h.symm⟩)
    · exact .inr (.inl ⟨ha', hb, h.symm⟩)
  · simp [exec, execMul, e, Except.bind] at h
    exact .inl ⟨ha, h.symm⟩

theorem exec_hlt (s : State) : exec .hlt s = .next s.halt := rfl

theorem exec_ldi_reg (s : State) (i : RegIdx) (imm : Byte) :
    exec (.ldi (BitVec.ofNat 8 i.val) imm) s = .next ((s.setReg i imm).advance 2) := by
  simp [exec, execLdi, Except.map, literalOperand]

theorem exec_prn_reg (s : State) (i : RegIdx) :
    exec (.prn (BitVec.ofNat 8 i.val)) s = .next ((s.emit (s.reg i)).advance 1) := by
  simp [exec, execPrn, Except.map]

theorem exec_push_reg (s : State) (i : RegIdx) :
    exec (.push (BitVec.ofNat 8 i.val)) s = .next ((pushEffect i s).advance 1) := by
  simp [exec, execPush, Except.map]

theorem exec_pop_reg (s : State) (i : RegIdx) :
    exec (.pop (BitVec.ofNat 8 i.val)) s = .next ((popEffect i s).advance 1) := by
  simp [exec, execPop, Except.map]

theorem exec_mul_reg (s : State) (i j : RegIdx) :
    exec (.mul (BitVec.ofNat 8 i.val) (BitVec.ofNat 8 j.val)) s =
      .next ((s.setReg i (aluResult .mul (s.reg i) (s.reg j))).advance 2) := by
  simp [exec, execMul, Except.bind, alu]

/-- No meaning stops outside the state: every instruction answers a next state. -/
theorem exec_answers_next (i : Instr) (s : State) : ∃ t, exec i s = .next t := by
  cases i with
  | hlt => exact ⟨_, rfl⟩
  | push r => rcases regOperand_cases r with ⟨i, _, e⟩ | ⟨_, e⟩ <;>
      simp [exec, execPush, e, Except.map]
  | pop r => rcases regOperand_cases r with ⟨i, _, e⟩ | ⟨_, e⟩ <;>
      simp [exec, execPop, e, Except.map]
  | prn r => rcases regOperand_cases r with ⟨i, _, e⟩ | ⟨_, e⟩ <;>
      simp [exec, execPrn, e, Except.map]
  | ldi r imm => rcases regOperand_cases r with ⟨i, _, e⟩ | ⟨_, e⟩ <;>
      simp [exec, execLdi, e, Except.map]
  | mul a b => rcases regOperand_cases a with ⟨i, _, e⟩ | ⟨_, e⟩ <;>
      rcases regOperand_cases b with ⟨j, _, e'⟩ | ⟨_, e'⟩ <;>
      simp [exec, execMul, e, e', Except.bind, alu]

/-- Said once for every well-formed instruction but HLT: an effect that does not look at `pc` and leaves
`pc` and `run`, then the advance over its operands (rules R76, R77). -/
theorem exec_effect {i : Instr} (hi : i.WellFormed) (hn : i ≠ .hlt) :
    ∃ f : State → State,
      (∀ s, exec i s = .next ((f s).advance (operandCount i.opcode))) ∧
      (∀ s p, f { s with pc := p } = { f s with pc := p }) ∧
      (∀ s, (f s).pc = s.pc) ∧ ∀ s, (f s).run = s.run := by
  cases i with
  | hlt => exact absurd rfl hn
  | push r =>
    obtain ⟨j, rfl⟩ := exists_reg_of_le hi
    exact ⟨pushEffect j, fun s => by rw [exec_push_reg]; simp [Instr.opcode],
      fun _ _ => rfl, fun _ => rfl, fun _ => rfl⟩
  | pop r =>
    obtain ⟨j, rfl⟩ := exists_reg_of_le hi
    exact ⟨popEffect j, fun s => by rw [exec_pop_reg]; simp [Instr.opcode],
      fun _ _ => rfl, fun _ => rfl, fun _ => rfl⟩
  | prn r =>
    obtain ⟨j, rfl⟩ := exists_reg_of_le hi
    exact ⟨fun s => s.emit (s.reg j), fun s => by rw [exec_prn_reg]; simp [Instr.opcode],
      fun _ _ => rfl, fun _ => rfl, fun _ => rfl⟩
  | ldi r imm =>
    obtain ⟨j, rfl⟩ := exists_reg_of_le hi
    exact ⟨fun s => s.setReg j imm, fun s => by rw [exec_ldi_reg]; simp [Instr.opcode],
      fun _ _ => rfl, fun _ => rfl, fun _ => rfl⟩
  | mul a b =>
    obtain ⟨j, rfl⟩ := exists_reg_of_le hi.1
    obtain ⟨k, rfl⟩ := exists_reg_of_le hi.2
    exact ⟨fun s => s.setReg j (aluResult .mul (s.reg j) (s.reg k)),
      fun s => by rw [exec_mul_reg]; simp [Instr.opcode], fun _ _ => rfl, fun _ => rfl, fun _ => rfl⟩

/-- Memory after a meaning: unchanged, or PUSH wrote one byte at its address (rule R21). -/
theorem exec_mem_cases {i : Instr} (h : exec i s = .next t) :
    t.mem = s.mem ∨ ∃ r v, i = .push r ∧ t.mem = s.mem.write (pushAddress s) v := by
  cases i with
  | hlt => rw [exec_hlt] at h; injection h with h; subst h; simp
  | push r => rcases exec_push_cases h with ⟨_, rfl⟩ | ⟨i, rfl, rfl⟩ <;> simp
  | pop r => rcases exec_pop_cases h with ⟨_, rfl⟩ | ⟨i, rfl, rfl⟩ <;> simp
  | prn r => rcases exec_prn_cases h with ⟨_, rfl⟩ | ⟨i, rfl, rfl⟩ <;> simp
  | ldi r imm => rcases exec_ldi_cases h with ⟨_, rfl⟩ | ⟨i, rfl, rfl⟩ <;> simp
  | mul a b =>
    rcases exec_mul_cases h with ⟨_, rfl⟩ | ⟨_, _, rfl⟩ | ⟨i, j, rfl, rfl, rfl⟩ <;> simp

/-- How a meaning can end: it advances and keeps the run state, halts, faults on a register byte with
nothing changed (the first or, for MUL, the second operand), or faults on the advance (rule R138). -/
theorem exec_ending {i : Instr} (h : exec i s = .next t) :
    (i ≠ .hlt ∧ t.run = s.run ∧ t.pc.toNat = s.pc.toNat + (encode i).length) ∨
    (i = .hlt ∧ t = s.halt) ∨
    (i ≠ .hlt ∧ ∃ b, 8 ≤ b.toNat ∧ t = s.raise (.outOfRange .registerIndex b.toNat) ∧
      ((encode i)[1]? = some b ∨ i.opcode = opcMul ∧ (encode i)[2]? = some b)) ∨
    (i ≠ .hlt ∧ i.WellFormed ∧ 255 < s.pc.toNat + (encode i).length ∧ t.pc = s.pc ∧
      t.run = .faulted (.outOfRange .pcAdvance (s.pc.toNat + (encode i).length))) := by
  by_cases hh : i = .hlt
  · subst hh; rw [exec_hlt] at h; injection h with h; exact .inr (.inl ⟨rfl, h.symm⟩)
  by_cases hw : i.WellFormed
  · obtain ⟨f, hf, _, hpc, hrun⟩ := exec_effect hw hh
    rw [hf] at h
    injection h with h
    subst h
    have ha := (f s).advance_cases (operandCount i.opcode)
    rw [hpc, hrun, Nat.add_assoc, ← encode_length] at ha
    rcases ha with ⟨_, hr, hp⟩ | ⟨hgt, hp, hr⟩
    · exact .inl ⟨hh, hr, hp⟩
    · exact .inr (.inr (.inr ⟨hh, hw, hgt, hp, hr⟩))
  · refine .inr (.inr (.inl ⟨hh, ?_⟩))
    cases i with
    | hlt => exact absurd rfl hh
    | push r =>
      rcases exec_push_cases h with ⟨hr, e⟩ | ⟨j, rfl, _⟩
      · exact ⟨r, hr, e, .inl rfl⟩
      · exact absurd (by simp [Instr.WellFormed, IsRegister]; omega) hw
    | pop r =>
      rcases exec_pop_cases h with ⟨hr, e⟩ | ⟨j, rfl, _⟩
      · exact ⟨r, hr, e, .inl rfl⟩
      · exact absurd (by simp [Instr.WellFormed, IsRegister]; omega) hw
    | prn r =>
      rcases exec_prn_cases h with ⟨hr, e⟩ | ⟨j, rfl, _⟩
      · exact ⟨r, hr, e, .inl rfl⟩
      · exact absurd (by simp [Instr.WellFormed, IsRegister]; omega) hw
    | ldi r imm =>
      rcases exec_ldi_cases h with ⟨hr, e⟩ | ⟨j, rfl, _⟩
      · exact ⟨r, hr, e, .inl rfl⟩
      · exact absurd (by simp [Instr.WellFormed, IsRegister]; omega) hw
    | mul a b =>
      rcases exec_mul_cases h with ⟨hr, e⟩ | ⟨_, hr, e⟩ | ⟨j, k, rfl, rfl, _⟩
      · exact ⟨a, hr, e, .inl rfl⟩
      · exact ⟨b, hr, e, .inr ⟨rfl, rfl⟩⟩
      · exact absurd (by simp [Instr.WellFormed, IsRegister]; omega) hw

end Sys2Proof.Machine
end

