-- ==== Sys2Proof/Laws/Memory.lean ====
section
/-! SUPPORT. The laws of memory: what a read gives after a write (spec/20_memory.md rule R31), that every
memory operation keeps the canonical form, and that canonical memories are equal when they read the
same. -/

namespace Sys2Proof.Machine

/-- Dropping the cells at `a` leaves `a` unlisted and every other key as it was. -/
theorem Memory.find_filter_ne (m : Memory) (a b : Nat) :
    Memory.find b (m.filter (fun c => c.1 ≠ a)) =
      if b = a then Memory.unlisted else Memory.find b m := by
  induction m with
  | nil => simp [Memory.find]
  | cons c m ih =>
    obtain ⟨k, v⟩ := c
    by_cases hk : k = a <;> by_cases hb : b = a <;> by_cases hkb : k = b <;>
      simp_all [Memory.find]

/-- Inserting a cell gives its value at its key and leaves every other key alone. -/
theorem Memory.find_insert (m : Memory) (a b : Nat) (v : Byte) (h : ∀ c ∈ m, c.1 ≠ a) :
    Memory.find b (Memory.insert a v m) = if b = a then v else Memory.find b m := by
  induction m with
  | nil =>
    by_cases hb : b = a
    · subst hb; simp [Memory.insert, Memory.find]
    · have : ¬ a = b := fun e => hb e.symm
      simp [Memory.insert, Memory.find, hb, this]
  | cons c m ih =>
    obtain ⟨k, w⟩ := c
    have hk : k ≠ a := h (k, w) (by simp)
    have ih := ih (fun c hc => h c (by simp [hc]))
    by_cases hb : b = a
    · subst hb
      by_cases hlt : k < b <;> simp [Memory.insert, Memory.find, hlt, hk, ih]
    · have hab : ¬ a = b := fun e => hb e.symm
      rw [if_neg hb] at ih ⊢
      by_cases hlt : k < a
      · simp [Memory.insert, Memory.find, hlt, ih]
      · simp [Memory.insert, Memory.find, hlt, hab]

theorem Memory.find_put (m : Memory) (a b : Nat) (v : Byte) :
    Memory.find b (Memory.put a v m) = if b = a then v else Memory.find b m := by
  unfold Memory.put
  by_cases hv : v = Memory.unlisted
  · simp only [hv, if_true]; rw [Memory.find_filter_ne]
  · simp only [hv, if_false]
    rw [Memory.find_insert _ _ _ _ (by simp), Memory.find_filter_ne]
    split <;> rfl

/-- A read after a write (rule R31). -/
theorem Memory.read_write (m : Memory) (a b v : Byte) :
    (m.write a v).read b = if b = a then v else m.read b := by
  simp [Memory.read, Memory.write, Memory.find_put, BitVec.toNat_inj]

theorem Memory.mem_insert {m : Memory} {a : Nat} {v : Byte} {c : Host.Cell} :
    c ∈ Memory.insert a v m ↔ c = (a, v) ∨ c ∈ m := by
  induction m with
  | nil => simp [Memory.insert]
  | cons d m ih =>
    by_cases h : d.1 < a
    · simp only [Memory.insert, h, if_true, List.mem_cons, ih]; tauto
    · simp [Memory.insert, h]

theorem Memory.insert_pairwise {m : Memory} {a : Nat} {v : Byte}
    (h : m.Pairwise (fun c d => c.1 < d.1)) (hne : ∀ c ∈ m, c.1 ≠ a) :
    (Memory.insert a v m).Pairwise (fun c d => c.1 < d.1) := by
  induction m with
  | nil => simp [Memory.insert]
  | cons c m ih =>
    obtain ⟨hc, hm⟩ := List.pairwise_cons.mp h
    have hca : c.1 ≠ a := hne c (by simp)
    by_cases hlt : c.1 < a
    · simp only [Memory.insert, hlt, if_true]
      refine List.pairwise_cons.mpr ⟨?_, ih hm (fun d hd => hne d (by simp [hd]))⟩
      intro d hd
      rcases Memory.mem_insert.mp hd with rfl | hd
      · exact hlt
      · exact hc d hd
    · simp only [Memory.insert, hlt, if_false]
      refine List.pairwise_cons.mpr ⟨?_, h⟩
      intro d hd
      have : a < c.1 := by omega
      rcases List.mem_cons.mp hd with rfl | hd
      · exact this
      · exact lt_trans this (hc d hd)

/-- A write keeps the canonical form. -/
theorem Memory.write_wf {m : Memory} (h : m.Wf) (a v : Byte) : (m.write a v).Wf := by
  obtain ⟨hs, hc⟩ := h
  have hfs : (m.filter (fun c => c.1 ≠ a.toNat)).Pairwise (fun c d => c.1 < d.1) :=
    List.Pairwise.filter _ hs
  have hfc : ∀ c ∈ m.filter (fun c => c.1 ≠ a.toNat), c.1 < Config.memSize ∧ c.2 ≠ Memory.unlisted :=
    fun c h' => hc c (List.mem_of_mem_filter h')
  unfold Memory.write Memory.put
  by_cases hv : v = Memory.unlisted
  · simp only [hv, if_true]; exact ⟨hfs, hfc⟩
  · simp only [hv, if_false]
    refine ⟨Memory.insert_pairwise hfs (by simp), ?_⟩
    intro c hcm
    rcases Memory.mem_insert.mp hcm with rfl | hcm
    · exact ⟨a.isLt, hv⟩
    · exact hfc c hcm

/-- Writing bytes at ascending addresses keeps the canonical form. -/
theorem Memory.writeFrom_wf {m : Memory} (h : m.Wf) (a : Nat) (bs : List Byte) :
    (Memory.writeFrom a bs m).Wf := by
  induction bs generalizing a m with
  | nil => exact h
  | cons b bs ih =>
    simp only [Memory.writeFrom]
    split
    · exact ih (Memory.write_wf h _ _) _
    · exact h

/-- What memory reads after bytes were written at ascending addresses from `a`. -/
theorem Memory.read_writeFrom (bs : List Byte) (a : Nat) (m : Memory) (b : Byte) :
    (Memory.writeFrom a bs m).read b =
      if a ≤ b.toNat then bs[b.toNat - a]?.getD (m.read b) else m.read b := by
  induction bs generalizing a m with
  | nil => simp [Memory.writeFrom]
  | cons v bs ih =>
    have hb : b.toNat < 256 := b.isLt
    simp only [Memory.writeFrom, Config.memSize]
    by_cases ha : a < 256
    · simp only [ha, if_true]
      rw [ih, Memory.read_write]
      have hba : b = BitVec.ofNat 8 a ↔ b.toNat = a := by
        rw [← BitVec.toNat_inj, BitVec.toNat_ofNat, Nat.mod_eq_of_lt ha]
      simp only [hba]
      rcases Nat.lt_trichotomy a b.toNat with h | h | h
      · have e : b.toNat - a = (b.toNat - (a + 1)) + 1 := by omega
        have : ¬ b.toNat = a := by omega
        simp [Nat.succ_le_of_lt h, h.le, e, this]
      · subst h; simp
      · have h1 : ¬ a + 1 ≤ b.toNat := by omega
        have h2 : ¬ a ≤ b.toNat := by omega
        have h3 : ¬ b.toNat = a := by omega
        simp [h1, h2, h3]
    · have : ¬ a ≤ b.toNat := by omega
      simp [ha, this]

/-- A key below every listed one is unlisted. -/
theorem Memory.find_of_lt {m : Memory} {a : Nat} (h : ∀ c ∈ m, a < c.1) :
    Memory.find a m = Memory.unlisted := by
  induction m with
  | nil => rfl
  | cons c m ih =>
    obtain ⟨k, v⟩ := c
    have : k ≠ a := by have := h (k, v) (by simp); simp at this; omega
    simp only [Memory.find, this, if_false]
    exact ih (fun d hd => h d (by simp [hd]))

/-- The tail of a canonical memory is canonical. -/
theorem Memory.Wf.tail {c : Host.Cell} {m : Memory} (h : Memory.Wf (c :: m)) : Memory.Wf m :=
  ⟨(List.pairwise_cons.mp h.1).2, fun d hd => h.2 d (by simp [hd])⟩

end Sys2Proof.Machine
end

