-- ==== Sys2Proof/Laws/PerInstr.lean ====
section
/-! SUPPORT. The family of statements made instruction by instruction: the shape of an encoding. -/

namespace Sys2Proof.Laws

/-- An instruction's bytes begin with its opcode, and there is one more for each operand its opcode's top
bits count (spec/30_encoding.md rules R50, R58). -/
def EncodingShape.Statement (i : Instr) : Prop :=
  ∃ operands, encode i = i.opcode :: operands ∧ operands.length = operandCount i.opcode

theorem EncodingShape.hlt : EncodingShape.Statement .hlt := ⟨[], rfl, by simp [Instr.opcode]⟩
theorem EncodingShape.push (r : Byte) : EncodingShape.Statement (.push r) := ⟨[r], rfl, by simp [Instr.opcode]⟩
theorem EncodingShape.pop (r : Byte) : EncodingShape.Statement (.pop r) := ⟨[r], rfl, by simp [Instr.opcode]⟩
theorem EncodingShape.prn (r : Byte) : EncodingShape.Statement (.prn r) := ⟨[r], rfl, by simp [Instr.opcode]⟩
theorem EncodingShape.ldi (r imm : Byte) : EncodingShape.Statement (.ldi r imm) :=
  ⟨[r, imm], rfl, by simp [Instr.opcode]⟩
theorem EncodingShape.mul (a b : Byte) : EncodingShape.Statement (.mul a b) :=
  ⟨[a, b], rfl, by simp [Instr.opcode]⟩

end Sys2Proof.Laws
end

