-- ==== Sys2Proof/Laws/Step.lean ====
section
/-! SUPPORT. What a fetch and a step can do, said once (spec/40_cycle_and_decode.md rules R70 to R78). -/

namespace Sys2Proof.Machine

variable {s t : State}

theorem State.byteAt_of_le {a : Nat} (h : a ≤ 255) :
    s.byteAt a = some (s.mem.read (BitVec.ofNat 8 a)) := by simp [State.byteAt, h]

theorem State.byteAt_of_gt {a : Nat} (h : 255 < a) : s.byteAt a = none := by
  simp [State.byteAt, Nat.not_le.mpr h]

/-- The byte at `pc` as an address. -/
theorem ofNat_pc_zero (p : Byte) : BitVec.ofNat 8 p.toNat = p := by simp

theorem ofNat_pc_one (p : Byte) : BitVec.ofNat 8 (p.toNat + 1) = p + 1 := by
  apply BitVec.eq_of_toNat_eq; simp

theorem ofNat_pc_two (p : Byte) : BitVec.ofNat 8 (p.toNat + 2) = p + 2 := by
  apply BitVec.eq_of_toNat_eq; simp

/-- The code bytes where three, two or one of them lie in memory (rule R35). -/
theorem State.codeBytes_three (h : s.pc.toNat ≤ 253) :
    s.codeBytes = [s.mem.read s.pc, s.mem.read (s.pc + 1), s.mem.read (s.pc + 2)] := by
  have h0 := s.byteAt_of_le (a := s.pc.toNat) (by omega)
  have h1 := s.byteAt_of_le (a := s.pc.toNat + 1) (by omega)
  have h2 := s.byteAt_of_le (a := s.pc.toNat + 2) (by omega)
  rw [ofNat_pc_zero] at h0; rw [ofNat_pc_one] at h1; rw [ofNat_pc_two] at h2
  simp [State.codeBytes, h0, h1, h2]

theorem State.codeBytes_two (h : s.pc.toNat = 254) :
    s.codeBytes = [s.mem.read s.pc, s.mem.read (s.pc + 1)] := by
  have h0 := s.byteAt_of_le (a := s.pc.toNat) (by omega)
  have h1 := s.byteAt_of_le (a := s.pc.toNat + 1) (by omega)
  have h2 := s.byteAt_of_gt (a := s.pc.toNat + 2) (by omega)
  rw [ofNat_pc_zero] at h0; rw [ofNat_pc_one] at h1
  simp [State.codeBytes, h0, h1, h2]

theorem State.codeBytes_one (h : s.pc.toNat = 255) : s.codeBytes = [s.mem.read s.pc] := by
  have h0 := s.byteAt_of_le (a := s.pc.toNat) (by omega)
  have h1 := s.byteAt_of_gt (a := s.pc.toNat + 1) (by omega)
  have h2 := s.byteAt_of_gt (a := s.pc.toNat + 2) (by omega)
  rw [ofNat_pc_zero] at h0
  simp [State.codeBytes, h0, h1, h2]

/-- The code bytes begin with the opcode (rule R71: the opcode fetch never faults). -/
theorem State.codeBytes_eq_cons (s : State) : ∃ rest, s.codeBytes = s.mem.read s.pc :: rest := by
  have := s.pc.isLt
  rcases (by omega : s.pc.toNat ≤ 253 ∨ s.pc.toNat = 254 ∨ s.pc.toNat = 255) with h | h | h
  · exact ⟨_, s.codeBytes_three h⟩
  · exact ⟨_, s.codeBytes_two h⟩
  · exact ⟨_, s.codeBytes_one h⟩

/-- Everything the fetch of a one-operand instruction can answer (rule R74). -/
theorem fetch_f1 {build : Byte → Instr}
    (hd : ∀ rest, decode (s.mem.read s.pc :: rest) = decodeF1 build rest) :
    (s.pc.toNat ≤ 254 ∧ fetch s = .ok (build (s.mem.read (s.pc + 1)))) ∨
    (s.pc.toNat = 255 ∧ fetch s = .error (.outOfRange .operandFetch 256)) := by
  have := s.pc.isLt
  rcases (by omega : s.pc.toNat ≤ 253 ∨ s.pc.toNat = 254 ∨ s.pc.toNat = 255) with h | h | h
  · left; refine ⟨by omega, ?_⟩; simp [fetch, s.codeBytes_three h, hd, decodeF1]
  · left; refine ⟨by omega, ?_⟩; simp [fetch, s.codeBytes_two h, hd, decodeF1]
  · right; refine ⟨h, ?_⟩; simp [fetch, s.codeBytes_one h, hd, decodeF1, fetchFault, h]

/-- Everything the fetch of a two-operand instruction can answer (rule R74). -/
theorem fetch_f2 {build : Byte → Byte → Instr}
    (hd : ∀ rest, decode (s.mem.read s.pc :: rest) = decodeF2 build rest) :
    (s.pc.toNat ≤ 253 ∧ fetch s = .ok (build (s.mem.read (s.pc + 1)) (s.mem.read (s.pc + 2)))) ∨
    (254 ≤ s.pc.toNat ∧ fetch s = .error (.outOfRange .operandFetch 256)) := by
  have := s.pc.isLt
  rcases (by omega : s.pc.toNat ≤ 253 ∨ s.pc.toNat = 254 ∨ s.pc.toNat = 255) with h | h | h
  · left; refine ⟨by omega, ?_⟩; simp [fetch, s.codeBytes_three h, hd, decodeF2]
  · right; refine ⟨by omega, ?_⟩; simp [fetch, s.codeBytes_two h, hd, decodeF2, fetchFault, h]
  · right; refine ⟨by omega, ?_⟩; simp [fetch, s.codeBytes_one h, hd, decodeF2, fetchFault, h]

theorem fetch_hlt (h : s.mem.read s.pc = opcHlt) : fetch s = .ok .hlt := by
  obtain ⟨rest, e⟩ := s.codeBytes_eq_cons
  simp [fetch, e, h, decode_hlt]

theorem fetch_unknown (h : s.mem.read s.pc ∉ [(1 : Byte), 69, 70, 71, 130, 162]) :
    fetch s = .error (.unknownOpcode (s.mem.read s.pc)) := by
  obtain ⟨rest, e⟩ := s.codeBytes_eq_cons
  simp [fetch, e, decode_unknown h, fetchFault]

/-- Everything a fetch can answer: the instruction whose bytes stand at `pc`, or one of the two faults of
a fetch (rules R71 to R74). -/
theorem fetch_cases (s : State) :
    (s.mem.read s.pc = opcHlt ∧ fetch s = .ok .hlt) ∨
    (s.mem.read s.pc = opcPush ∧ s.pc.toNat ≤ 254 ∧
      fetch s = .ok (.push (s.mem.read (s.pc + 1)))) ∨
    (s.mem.read s.pc = opcPop ∧ s.pc.toNat ≤ 254 ∧
      fetch s = .ok (.pop (s.mem.read (s.pc + 1)))) ∨
    (s.mem.read s.pc = opcPrn ∧ s.pc.toNat ≤ 254 ∧
      fetch s = .ok (.prn (s.mem.read (s.pc + 1)))) ∨
    (s.mem.read s.pc = opcLdi ∧ s.pc.toNat ≤ 253 ∧
      fetch s = .ok (.ldi (s.mem.read (s.pc + 1)) (s.mem.read (s.pc + 2)))) ∨
    (s.mem.read s.pc = opcMul ∧ s.pc.toNat ≤ 253 ∧
      fetch s = .ok (.mul (s.mem.read (s.pc + 1)) (s.mem.read (s.pc + 2)))) ∨
    (s.mem.read s.pc ∉ [(1 : Byte), 69, 70, 71, 130, 162] ∧
      fetch s = .error (.unknownOpcode (s.mem.read s.pc))) ∨
    (((s.mem.read s.pc = opcLdi ∨ s.mem.read s.pc = opcMul) ∧ 254 ≤ s.pc.toNat ∨
        (s.mem.read s.pc = opcPush ∨ s.mem.read s.pc = opcPop ∨ s.mem.read s.pc = opcPrn) ∧
          s.pc.toNat = 255) ∧
      fetch s = .error (.outOfRange .operandFetch 256)) := by
  rcases identity_cases (s.mem.read s.pc) with
    ⟨e, _⟩ | ⟨e, _⟩ | ⟨e, _⟩ | ⟨e, _⟩ | ⟨e, _⟩ | ⟨e, _⟩ | ⟨e, _⟩
  · exact .inl ⟨e, fetch_hlt e⟩
  · rcases fetch_f1 (s := s) (build := .push) (by intro r; rw [e, decode_push]) with ⟨h, f⟩ | ⟨h, f⟩
    · exact .inr (.inl ⟨e, h, f⟩)
    · exact .inr (.inr (.inr (.inr (.inr (.inr (.inr ⟨.inr ⟨.inl e, h⟩, f⟩))))))
  · rcases fetch_f1 (s := s) (build := .pop) (by intro r; rw [e, decode_pop]) with ⟨h, f⟩ | ⟨h, f⟩
    · exact .inr (.inr (.inl ⟨e, h, f⟩))
    · exact .inr (.inr (.inr (.inr (.inr (.inr (.inr ⟨.inr ⟨.inr (.inl e), h⟩, f⟩))))))
  · rcases fetch_f1 (s := s) (build := .prn) (by intro r; rw [e, decode_prn]) with ⟨h, f⟩ | ⟨h, f⟩
    · exact .inr (.inr (.inr (.inl ⟨e, h, f⟩)))
    · exact .inr (.inr (.inr (.inr (.inr (.inr (.inr ⟨.inr ⟨.inr (.inr e), h⟩, f⟩))))))
  · rcases fetch_f2 (s := s) (build := .ldi) (by intro r; rw [e, decode_ldi]) with ⟨h, f⟩ | ⟨h, f⟩
    · exact .inr (.inr (.inr (.inr (.inl ⟨e, h, f⟩))))
    · exact .inr (.inr (.inr (.inr (.inr (.inr (.inr ⟨.inl ⟨.inl e, h⟩, f⟩))))))
  · rcases fetch_f2 (s := s) (build := .mul) (by intro r; rw [e, decode_mul]) with ⟨h, f⟩ | ⟨h, f⟩
    · exact .inr (.inr (.inr (.inr (.inr (.inl ⟨e, h, f⟩)))))
    · exact .inr (.inr (.inr (.inr (.inr (.inr (.inr ⟨.inl ⟨.inr e, h⟩, f⟩))))))
  · exact .inr (.inr (.inr (.inr (.inr (.inr (.inl ⟨e, fetch_unknown e⟩))))))

/-- A fetched instruction has the opcode at `pc` and all its bytes lie in memory (rule R74). -/
theorem fetch_ok_opcode {i : Instr} (h : fetch s = .ok i) :
    s.mem.read s.pc = i.opcode ∧ s.pc.toNat + (encode i).length ≤ 256 := by
  have := s.pc.isLt
  rcases fetch_cases s with h' | h' | h' | h' | h' | h' | h' | h' <;> simp [h] at h'
  · obtain ⟨e, rfl⟩ := h'; exact ⟨e, by simp [encode]; omega⟩
  all_goals obtain ⟨e, f, rfl⟩ := h'; exact ⟨e, by simp [encode]; omega⟩

theorem step_of_fetch_ok {i : Instr} (hr : s.run = .running) (h : fetch s = .ok i) :
    step s = exec i s := by simp [step, cycle, hr, runningCycle, h]

theorem step_of_fetch_error {r : FaultReason} (hr : s.run = .running) (h : fetch s = .error r) :
    step s = .next (s.raise r) := by simp [step, cycle, hr, runningCycle, h]

theorem step_of_stopped (h : s.run ≠ .running) : step s = .next s := by
  cases e : s.run <;> simp_all [step, cycle, terminalCycle]

/-- Everything a step can do: nothing in a terminal state, take the fault the fetch raised, or run the
fetched instruction. -/
theorem step_cases (h : step s = .next t) :
    (s.run ≠ .running ∧ t = s) ∨
    (s.run = .running ∧ ∃ r, fetch s = .error r ∧ t = s.raise r) ∨
    (s.run = .running ∧ ∃ i, fetch s = .ok i ∧ exec i s = .next t) := by
  by_cases hr : s.run = .running
  · cases hf : fetch s with
    | ok i => exact .inr (.inr ⟨hr, i, rfl, by rw [← step_of_fetch_ok hr hf]; exact h⟩)
    | error r =>
      rw [step_of_fetch_error hr hf] at h
      exact .inr (.inl ⟨hr, r, rfl, by simpa using h.symm⟩)
  · rw [step_of_stopped hr] at h
    exact .inl ⟨hr, by simpa using h.symm⟩

/-- No step stops outside the state. -/
theorem step_answers_next (s : State) : ∃ t, step s = .next t := by
  by_cases hr : s.run = .running
  · cases hf : fetch s with
    | ok i => rw [step_of_fetch_ok hr hf]; exact exec_answers_next i s
    | error r => exact ⟨_, step_of_fetch_error hr hf⟩
  · exact ⟨s, step_of_stopped hr⟩

end Sys2Proof.Machine
end

