-- ==== Sys2Proof/Tests/Slice0.lean ====
section
/-! SUPPORT. The model's own tests: WellFormed smoke tests, decoding of words written out from the spec's
encodings, single steps with the results of spec/95_test_vectors.md section 3, and for every statement
that has hypotheses a witness that meets them. -/

namespace Sys2Proof.Tests

open Sys2Proof Sys2Proof.Machine Sys2Proof.Spec

/-! ### WellFormed: an ill-formed term for each check (spec/30_encoding.md rule R53) -/

theorem test_push_r8_ill_formed : (Instr.push 8).wellFormed = false := by decide
theorem test_pop_r8_ill_formed : (Instr.pop 8).wellFormed = false := by decide
theorem test_prn_r255_ill_formed : (Instr.prn 255).wellFormed = false := by decide
theorem test_ldi_r8_ill_formed : (Instr.ldi 8 0).wellFormed = false := by decide
theorem test_mul_first_r8_ill_formed : (Instr.mul 8 0).wellFormed = false := by decide
theorem test_mul_second_r8_ill_formed : (Instr.mul 0 8).wellFormed = false := by decide
theorem test_r7_and_any_literal_well_formed :
    (Instr.ldi 7 255).wellFormed = true ∧ (Instr.mul 7 7).wellFormed = true := by decide

/-- The Bool check is the predicate. -/
theorem test_wellFormed_iff (i : Instr) : i.wellFormed = true ↔ i.WellFormed := by
  cases i <;> simp [Instr.wellFormed, Instr.WellFormed]

/-! ### Decoding: words from rules R52, R54, R59; unknown bytes from 95_test_vectors.md 3.1 -/

theorem test_decode_hlt : decode [0b00000001, 9] = .ok (.hlt, [9]) := by decide
theorem test_decode_push : decode [0b01000101, 5] = .ok (.push 5, []) := by decide
theorem test_decode_pop : decode [0b01000110, 6] = .ok (.pop 6, []) := by decide
theorem test_decode_prn : decode [0b01000111, 7] = .ok (.prn 7, []) := by decide
theorem test_decode_ldi : decode [0b10000010, 0, 8] = .ok (.ldi 0 8, []) := by decide
theorem test_decode_mul : decode [0b10100010, 0, 1] = .ok (.mul 0 1, []) := by decide

theorem test_decode_unknown_neighbours :
    ([0, 2, 68, 72, 129, 131, 160, 161, 163, 192, 255] : List Byte).all
      (fun v => decode [v, 1, 1] = .error (.unknownOpcode v)) = true := by decide

theorem test_decode_missing_operand :
    decode [69] = .error (.missingOperand 1) ∧ decode [130] = .error (.missingOperand 1) ∧
    decode [162, 0] = .error (.missingOperand 2) := by decide

/-! ### The table's words, decoded and run as the first instruction after reset -/

theorem test_table_words_decode :
    decodeTableWord 8 1 = some .hlt ∧ decodeTableWord 8 69 = some (.push 0) ∧
    decodeTableWord 8 70 = some (.pop 0) ∧ decodeTableWord 8 71 = some (.prn 0) ∧
    decodeTableWord 8 130 = some (.ldi 0 0) ∧ decodeTableWord 8 162 = some (.mul 0 0) ∧
    decodeTableWord 24 0x080382 = some (.ldi 3 8) ∧ decodeTableWord 8 160 = none := by decide

theorem test_placed_word_runs_hlt : step (State.reset.withFetchWord 8 1) =
    exec .hlt (State.reset.withFetchWord 8 1) := rfl
theorem test_placed_word_runs_push : step (State.reset.withFetchWord 8 69) =
    exec (.push 0) (State.reset.withFetchWord 8 69) := rfl
theorem test_placed_word_runs_pop : step (State.reset.withFetchWord 8 70) =
    exec (.pop 0) (State.reset.withFetchWord 8 70) := rfl
theorem test_placed_word_runs_prn : step (State.reset.withFetchWord 8 71) =
    exec (.prn 0) (State.reset.withFetchWord 8 71) := rfl
theorem test_placed_word_runs_ldi : step (State.reset.withFetchWord 24 0x080382) =
    exec (.ldi 3 8) (State.reset.withFetchWord 24 0x080382) := rfl
theorem test_placed_word_runs_mul : step (State.reset.withFetchWord 8 162) =
    exec (.mul 0 0) (State.reset.withFetchWord 8 162) := rfl

/-! ### Single steps -/

/-- A running state with the given `pc`, memory and registers. -/
def at_ (pc : Byte) (mem : Memory) (x : Vector Byte 8 := State.reset.x) : State :=
  { mem := mem, x := x, pc := pc, run := .running, out := [] }

/-- The state after one step. -/
def after (s : State) : State :=
  match step s with
  | .next t => t
  | .fault _ => s
  | .refused _ => s

-- 95_test_vectors.md 3.2, third and fourth rows
theorem test_ldi_successor_255 :
    let t := after (at_ 252 [(252, 130), (253, 3), (254, 255)])
    t.reg 3 = 255 ∧ t.pc = 255 ∧ t.run = .running := by decide
theorem test_ldi_advance_faults_effect_kept :
    let t := after (at_ 253 [(253, 130), (254, 3), (255, 7)])
    t.reg 3 = 7 ∧ t.pc = 253 ∧ t.run = .faulted (.outOfRange .pcAdvance 256) := by decide

-- 3.2, fifth row: the operand fetch fault comes before the register check
theorem test_fetch_fault_before_register_check :
    (after (at_ 254 [(254, 130), (255, 9)])).run = .faulted (.outOfRange .operandFetch 256) := by
  decide

-- 3.3, second and last rows
theorem test_prn_sp : (after (at_ 0 [(0, 71), (1, 7)])).out = [244] := by decide
theorem test_prn_r8_faults :
    let t := after (at_ 0 [(0, 71), (1, 8)])
    t.out = [] ∧ t.pc = 0 ∧ t.run = .faulted (.outOfRange .registerIndex 8) := by decide

-- 3.4: 200 * 3; MUL with 9 and 10, the first operand is checked first
theorem test_mul_wraps :
    let t := after (at_ 0 [(0, 162), (2, 1)] #v[200, 3, 0, 0, 0, 0, 0, 244])
    t.reg 0 = 88 ∧ t.reg 1 = 3 ∧ t.pc = 3 := by decide
theorem test_mul_first_operand_checked_first :
    (after (at_ 0 [(0, 162), (1, 9), (2, 10)])).run = .faulted (.outOfRange .registerIndex 9) := by
  decide

-- 3.5: PUSH R7 stores the old SP; a store that hits the instruction's own operand byte
theorem test_push_sp_stores_old_value :
    let t := after (at_ 0 [(0, 69), (1, 7)])
    t.sp = 243 ∧ t.mem.read 243 = 244 ∧ t.pc = 2 := by decide
theorem test_push_onto_own_operand :
    let t := after (at_ 0 [(0, 69)] #v[1, 0, 0, 0, 0, 0, 0, 2])
    t.sp = 1 ∧ t.mem.read 1 = 1 ∧ t.pc = 2 := by decide

-- 3.6: POP R7 wraps; POP with nothing pushed
theorem test_pop_sp_wraps :
    (after (at_ 0 [(0, 70), (1, 7), (243, 255)] #v[0, 0, 0, 0, 0, 0, 0, 243])).sp = 0 := by decide
theorem test_pop_with_nothing_pushed :
    let t := after (at_ 0 [(0, 70), (1, 1)] #v[0, 9, 0, 0, 0, 0, 0, 244])
    t.reg 1 = 0 ∧ t.sp = 245 ∧ t.pc = 2 := by decide

-- 3.7: HLT at the last address
theorem test_hlt_at_255 : after (at_ 255 [(255, 1)]) = { at_ 255 [(255, 1)] with run := .halted } := by
  decide

-- 43_alu.md, vectors of 3.4 for the ALU's ADD
theorem test_alu_add : aluResult .add 200 100 = 44 ∧ aluResult .add 255 1 = 0 := by decide

-- The empty image (95_test_vectors.md, degenerate images)
theorem test_reset_step_faults_on_zero :
    after State.reset = { State.reset with run := .faulted (.unknownOpcode 0) } := by decide

-- Memory: writing what an unlisted address reads as removes the entry
theorem test_write_zero_unlists :
    Memory.write [(3, 1), (5, 2)] 3 0 = [(5, 2)] ∧
    Memory.write [(3, 1), (5, 2)] 4 9 = [(3, 1), (4, 9), (5, 2)] := by decide

/-! ### Witnesses: states and operands that meet the hypotheses of each statement -/

/-- LDI R3,255 in the last place from which it can advance, and one past it. -/
def ldiAt252 : State := at_ 252 [(252, 130), (253, 3), (254, 255)]
def ldiAt253 : State := at_ 253 [(253, 130), (254, 3), (255, 7)]
/-- PRN R7 and PUSH R0 at address 0, PUSH R0 at 254, HLT at 255. -/
def prnAt0 : State := at_ 0 [(0, 71), (1, 7)]
def pushAt0 : State := at_ 0 [(0, 69)] #v[5, 0, 0, 0, 0, 0, 0, 244]
def pushAt254 : State := at_ 254 [(254, 69)] #v[5, 0, 0, 0, 0, 0, 0, 244]
def hltAt255 : State := at_ 255 [(255, 1)]

theorem witness_DecodeEncodeAgree : decode [130, 7, 255, 9] = .ok (.ldi 7 255, [9]) := by decide
theorem witness_LengthFromOpcodeAlone :
    decode (162 :: [0, 1, 9]) = .ok (.mul 0 1, [9]) ∧ decode (1 :: []) = .ok (.hlt, []) := by decide

theorem witness_StepRunsDecodedInstruction :
    (ldiAt253.run = .running ∧ HasCode ldiAt253 (encode (.ldi 3 7))) ∧
    decode ldiAt253.codeBytes = .ok (.ldi 3 7, []) := by
  refine ⟨⟨rfl, ?_⟩, by decide⟩
  intro k b h
  rcases k with _ | _ | _ | k <;> simp [encode] at h <;> subst h <;> decide

theorem witness_StepIsTheWholeStepFunction : State.reset.run = .running := rfl
theorem witness_StepEndsInOneOfThreeWays :
    ldiAt252.run = .running ∧ State.reset.halt.run ≠ .running := by decide
theorem witness_StoppedEngineNeverChanges : (after State.reset).Stopped := by
  show (after State.reset).run ≠ .running; decide
theorem witness_EveryRunEndsWithin128Steps :
    128 ≤ 128 ∧ step ldiAt252 = .next (after ldiAt252) ∧ (after ldiAt252).run = .running :=
  ⟨by decide, rfl, by decide⟩
theorem witness_HaltsExactlyAtTheHaltByte :
    (hltAt255.run = .running ∧ step hltAt255 = .next (after hltAt255) ∧
      (after hltAt255).run = .halted) ∧
    (ldiAt252.run = .running ∧ step ldiAt252 = .next (after ldiAt252) ∧
      (after ldiAt252).run ≠ .halted) :=
  ⟨⟨rfl, rfl, by decide⟩, rfl, rfl, by decide⟩

theorem witness_UnknownOpcodeFaultsAtDecode :
    (160 : Byte) ∉ supportedOpcodes ∧
    (State.reset.run = .running ∧ State.reset.mem.read State.reset.pc ∉ supportedOpcodes) ∧
    (step State.reset = .next (after State.reset) ∧
      (after State.reset).run = .faulted (.unknownOpcode 0)) :=
  ⟨by decide, by decide, rfl, by decide⟩

theorem witness_OperandFetchPastTheTopFaults :
    (let s := at_ 254 [(254, 130)]
     s.run = .running ∧ s.mem.read s.pc ∈ [(130 : Byte), 162] ∧ 254 ≤ s.pc.toNat ∧
     step s = .next (after s) ∧ (after s).run = .faulted (.outOfRange .operandFetch 256)) ∧
    (let s := at_ 255 [(255, 71)]
     s.run = .running ∧ s.mem.read s.pc ∈ [(69 : Byte), 70, 71] ∧ s.pc.toNat = 255 ∧
     step s = .next (after s) ∧ (after s).run = .faulted (.outOfRange .operandFetch 256)) :=
  ⟨⟨rfl, by decide, by decide, rfl, by decide⟩, rfl, by decide, by decide, rfl, by decide⟩

theorem witness_RegisterIndexAboveSevenFaults :
    8 ≤ (8 : Byte).toNat ∧ 8 ≤ (255 : Byte).toNat ∧ (7 : Byte).toNat ≤ 7 := by decide

theorem witness_PcAdvancePastTheTopFaults :
    ((Instr.ldi 7 1).WellFormed ∧ Instr.ldi 7 1 ≠ .hlt ∧
      255 < ldiAt253.pc.toNat + (encode (.ldi 7 1)).length) ∧
    ((Instr.push 7).WellFormed ∧ Instr.push 7 ≠ .hlt ∧
      255 < pushAt254.pc.toNat + (encode (.push 7)).length) :=
  ⟨⟨by simp [Instr.WellFormed], by decide, by decide⟩, by simp [Instr.WellFormed], by decide, by decide⟩

theorem witness_FaultEntryKeepsState :
    (State.reset.run = .running ∧ step State.reset = .next (after State.reset) ∧
      (after State.reset).run = .faulted (.unknownOpcode 0) ∧
      ∀ a, FaultReason.unknownOpcode 0 ≠ .outOfRange .pcAdvance a) ∧
    (pushAt254.run = .running ∧ step pushAt254 = .next (after pushAt254) ∧
      (after pushAt254).run = .faulted (.outOfRange .pcAdvance 256)) :=
  ⟨⟨rfl, rfl, by decide, by intro a h; cases h⟩, rfl, rfl, by decide⟩

theorem witness_UnsupportedAluOperationNeverOccurs :
    State.reset.run = .running ∧ step State.reset = .next (after State.reset) := ⟨rfl, rfl⟩
theorem witness_StepKeepsMemoryForm :
    pushAt0.mem.Wf ∧ step pushAt0 = .next (after pushAt0) ∧ (after pushAt0).mem ≠ pushAt0.mem :=
  ⟨by decide, rfl, by decide⟩
theorem witness_StepKeepsStopRecord :
    pushAt254.StopRecordOk ∧ step pushAt254 = .next (after pushAt254) ∧
    (after pushAt254).run = .faulted (.outOfRange .pcAdvance 256) := ⟨trivial, rfl, by decide⟩
theorem witness_StartMeetsInvariants : ∃ t, loadImage [130, 0, 8] State.reset = .next t := ⟨_, rfl⟩
theorem witness_LoadWritesTheImage :
    (List.replicate 256 (1 : Byte)).length ≤ 256 ∧
    (∃ t, loadImage [130, 0, 8] State.reset = .next t) ∧
    ([130, 0, 8] : List Byte).length ≤ (3 : Byte).toNat :=
  ⟨Nat.le_of_eq List.length_replicate, ⟨_, rfl⟩, by decide⟩
theorem witness_LongImageIsRefused :
    256 < (List.replicate 257 (1 : Byte)).length ∧
    ¬ 256 < (List.replicate 256 (1 : Byte)).length := by
  rw [List.length_replicate, List.length_replicate]; decide
theorem witness_MemoryReadAfterWrite : (255 : Byte) ≠ 0 := by decide
theorem witness_MemoryIsItsReads :
    let m : Memory := [(0, 69), (255, 5)]
    m.Wf ∧ ∀ a : Byte, m.read a = m.read a := ⟨by decide, fun _ => rfl⟩
theorem witness_RegisterWriteTruncates :
    (at_ 0 [] #v[255, 0, 0, 0, 0, 0, 0, 244]).reg 0 = 255 ∧
    (at_ 0 [] #v[255, 0, 0, 0, 0, 0, 0, 244]).reg 1 = 0 ∧ (7 : RegIdx) ≠ 0 := by decide

theorem witness_OnlyListedAddressesAreRead :
    let m : Memory := [(0, 69), (9, 77)]
    pushAt0.run = .running ∧
    (∀ k ≤ 2, pushAt0.pc.toNat + k ≤ 255 →
      m.read (BitVec.ofNat 8 (pushAt0.pc.toNat + k)) =
        pushAt0.mem.read (BitVec.ofNat 8 (pushAt0.pc.toNat + k))) ∧
    m.read pushAt0.sp = pushAt0.mem.read pushAt0.sp ∧ m ≠ pushAt0.mem ∧
    step pushAt0 = .next (after pushAt0) := ⟨rfl, by decide, by decide, by decide, rfl⟩

theorem witness_OnlyPushWritesMemory :
    step pushAt0 = .next (after pushAt0) ∧
    (after pushAt0).mem.read 243 ≠ pushAt0.mem.read 243 := ⟨rfl, by decide⟩

/-- 95_test_vectors.md P4, its third step: the PUSH writes the opcode that comes next. -/
theorem witness_FetchSeesThePushedByte :
    let s := at_ 6 [(6, 69)] #v[1, 0, 0, 0, 0, 0, 0, 9]
    s.run = .running ∧ s.pc.toNat ≤ 253 ∧ s.mem.read s.pc = 69 ∧
    s.mem.read (s.pc + 1) = regByte 0 ∧ (after (after s)).run = .halted := by decide

theorem witness_LdiLoadsTheLiteral : ldiAt252.pc.toNat ≤ 252 := by decide
theorem witness_MulMultipliesModulo256 : (at_ 252 []).pc.toNat ≤ 252 := by decide
theorem witness_PrnEmitsTheRegister : (at_ 253 []).pc.toNat ≤ 253 := by decide
theorem witness_PushStoresBelowTheStackPointer : (at_ 253 []).pc.toNat ≤ 253 := by decide
theorem witness_PopLoadsAtTheStackPointer :
    (at_ 253 []).pc.toNat ≤ 253 ∧ (6 : RegIdx) ≠ spIndex ∧ (7 : RegIdx) = spIndex := by decide
theorem witness_HltHaltsWithNothingElseChanged :
    hltAt255.run = .running ∧ hltAt255.mem.read hltAt255.pc = 1 := by decide

/-- PUSH and then POP of any one register: the POP runs in the state the PUSH left, so `SP` and the pushed
byte are as PUSH left them. -/
theorem witness_PopUndoesPush (i : RegIdx) :
    ∃ t w, pushAt0.pc.toNat ≤ 253 ∧ t.pc.toNat ≤ 253 ∧
      exec (.push (regByte i)) pushAt0 = .next t ∧ exec (.pop (regByte i)) t = .next w := by
  fin_cases i <;> exact ⟨_, _, by decide, by decide, rfl, rfl⟩

theorem witness_StackAddressesWrap :
    (at_ 253 [] #v[5, 0, 0, 0, 0, 0, 0, 0]).sp = 0 ∧
    (at_ 253 [] #v[5, 0, 0, 0, 0, 0, 0, 255]).sp = 255 ∧ (0 : RegIdx) ≠ spIndex := by decide
theorem witness_FirstPushGoesToF3 : pushAt0.sp = State.reset.sp ∧ pushAt0.pc.toNat ≤ 253 := by decide
theorem witness_AluWritesOnlyRegisterA : (7 : RegIdx) ≠ 0 := by decide

theorem witness_FrameOfLdiAndMul :
    (∃ t, exec (.ldi 3 255) ldiAt252 = .next t) ∧ (∃ t, exec (.mul 0 8) ldiAt252 = .next t) ∧
    regByte 7 ≠ 3 := ⟨⟨_, rfl⟩, ⟨_, rfl⟩, by decide⟩
theorem witness_FrameOfPrnAndHlt :
    (∃ t, exec (.prn 7) prnAt0 = .next t) ∧ ∃ t, exec .hlt hltAt255 = .next t := ⟨⟨_, rfl⟩, _, rfl⟩
theorem witness_FrameOfPush :
    (∃ t, exec (.push 0) pushAt0 = .next t) ∧ pushAddress pushAt0 = 243 ∧ (244 : Byte) ≠ 243 ∧
    (0 : RegIdx) ≠ spIndex := ⟨⟨_, rfl⟩, by decide, by decide, by decide⟩
theorem witness_FrameOfPop :
    (∃ t, exec (.pop 1) pushAt0 = .next t) ∧ regByte 0 ≠ 1 ∧ (0 : RegIdx) ≠ spIndex :=
  ⟨⟨_, rfl⟩, by decide, by decide⟩
theorem witness_OutputGrowsOnlyByPrn :
    step prnAt0 = .next (after prnAt0) ∧ (after prnAt0).out ≠ prnAt0.out := ⟨rfl, by decide⟩
theorem witness_OutputIsNeverRead :
    Host.Core.run Sys2Proof.core 1 prnAt0 = .next (after prnAt0) := rfl

/-- MUL R7,R0: A is the stack pointer, the byte at 254 is its second operand. -/
theorem witness_AssemblyTableIsTheEncoding :
    let s := at_ 252 [(252, 162), (253, 7)]
    (Instr.mul 7 0).WellFormed ∧ s.run = .running ∧ s.pc.toNat ≤ 252 ∧
    HasCode s [162, regByte 7, regByte 0] := by
  refine ⟨by simp [Instr.WellFormed], rfl, by decide, ?_⟩
  intro k b h
  rcases k with _ | _ | _ | k <;> simp at h <;> subst h <;> decide

end Sys2Proof.Tests
end

section
/-! PROOFS. The register file truncates (spec/10_state.md rule R12). -/

namespace Sys2Proof.Machine

@[simp] theorem toNat_truncate (v : Nat) : (truncate v).toNat = v % 256 :=
  BitVec.toNat_ofNat v 8

theorem toNat_aluResult_mul (v w : Byte) :
    (aluResult .mul v w).toNat = v.toNat * w.toNat % 256 :=
  toNat_truncate (v.toNat * w.toNat)

/-- Settles O25: the register file's laws reduce each write to the byte it stores, which `truncate`
and the byte's own arithmetic give modulo 256. -/
theorem registerWriteTruncates : Obligations.RegisterWriteTruncates := by
  refine ⟨fun s i v => ⟨?stored, fun j hj => s.reg_setReg_ne hj _⟩, fun s i h => ?increment,
    fun s i h => ?decrement, toNat_aluResult_mul⟩
  case stored => rw [State.reg_setReg_same, toNat_truncate]
  case increment =>
    rw [State.reg_setReg_same, h]
    decide
  case decrement =>
    rw [State.reg_setReg_same, h]
    decide

end Sys2Proof.Machine
end

section
/-! PROOFS. The memory interface: a read after a write (spec/20_memory.md rule R31). Both halves are the
cases of the law `Memory.read_write`. -/

namespace Sys2Proof.Machine

@[simp] theorem Memory.read_write_same (m : Memory) (a v : Byte) : (m.write a v).read a = v := by
  rw [Memory.read_write, if_pos rfl]

theorem Memory.read_write_ne (m : Memory) {a b : Byte} (h : b ≠ a) (v : Byte) :
    (m.write a v).read b = m.read b := by
  rw [Memory.read_write, if_neg h]

/-- Settles O23: the address read is either the one written or another. -/
theorem memoryReadAfterWrite : Obligations.MemoryReadAfterWrite :=
  fun m a v => ⟨m.read_write_same a v, fun _ hb => m.read_write_ne hb v⟩

end Sys2Proof.Machine
end

section
/-! PROOFS. The decoder reads encodings and only encodings, and an opcode byte's top two bits count the
operand bytes (spec/30_encoding.md rules R50 to R54, R58). -/

namespace Sys2Proof

/-- The field `op[7:6]` as a number (rule R51). -/
theorem operandCount_eq_div (op : Byte) : operandCount op = op.toNat / 64 := by
  have := op.isLt
  simp [operandCount, Nat.shiftRight_eq_div_pow]
  omega

theorem encode_eq_opcode_cons (i : Instr) : ∃ operands, encode i = i.opcode :: operands := by
  cases i <;> exact ⟨_, rfl⟩

theorem decode_encode_append (i : Instr) (rest : List Byte) :
    decode (encode i ++ rest) = .ok (i, rest) := by
  cases i <;> rfl

theorem eq_encode_append_of_decode {bs rest : List Byte} {i : Instr}
    (h : decode bs = .ok (i, rest)) : bs = encode i ++ rest := by
  cases bs with
  | nil => cases h
  | cons op bs =>
    rcases identity_cases op with
      ⟨rfl, _⟩ | ⟨rfl, _⟩ | ⟨rfl, _⟩ | ⟨rfl, _⟩ | ⟨rfl, _⟩ | ⟨rfl, _⟩ | ⟨hop, _⟩
    · rw [decode_hlt] at h; cases h; rfl
    · obtain ⟨r, rfl, rfl⟩ := decodeF1_ok h; rfl
    · obtain ⟨r, rfl, rfl⟩ := decodeF1_ok h; rfl
    · obtain ⟨r, rfl, rfl⟩ := decodeF1_ok h; rfl
    · obtain ⟨o1, o2, rfl, rfl⟩ := decodeF2_ok h; rfl
    · obtain ⟨o1, o2, rfl, rfl⟩ := decodeF2_ok h; rfl
    · rw [decode_unknown hop] at h; cases h

/-- Settles O3: bytes that decode are the encoding of the instruction followed by the rest. The encoding
begins with `op`, whose count gives its length, and it decodes alike before any longer rest. -/
theorem lengthFromOpcodeAlone : Obligations.LengthFromOpcodeAlone := by
  intro op bs rest i h
  have hbytes : op :: bs = encode i ++ rest := eq_encode_append_of_decode h
  have hop : op = i.opcode := by
    obtain ⟨operands, e⟩ := encode_eq_opcode_cons i
    rw [e, List.cons_append] at hbytes
    exact List.head_eq_of_cons_eq hbytes
  refine ⟨?_, fun more => ?_⟩
  · rw [hbytes, List.length_append, encode_length, operandCount_eq_div, ← hop]
  · rw [← List.cons_append, hbytes, List.append_assoc, decode_encode_append]

end Sys2Proof
end

section
/-! PROOFS. An unknown opcode byte is fatal at decode, and that fault has no other cause
(spec/30_encoding.md rule R55, spec/40_cycle_and_decode.md rule R73, spec/60_exceptions.md rule R131). -/

namespace Sys2Proof.Machine

variable {s t : State}

theorem identity_of_not_mem_supportedOpcodes {op : Byte} (h : op ∉ supportedOpcodes) :
    identity op = .unknown op := by
  rcases identity_cases op with
    ⟨rfl, _⟩ | ⟨rfl, _⟩ | ⟨rfl, _⟩ | ⟨rfl, _⟩ | ⟨rfl, _⟩ | ⟨rfl, _⟩ | ⟨_, e⟩
  case inr.inr.inr.inr.inr.inr => exact e
  all_goals exact absurd (by decide) h

/-- Where a fetch raises the unknown-opcode fault: only at the unknown byte it records. -/
theorem opcode_of_fetch_unknownOpcode {v : Byte} (h : fetch s = .error (.unknownOpcode v)) :
    v = s.mem.read s.pc ∧ v ∉ supportedOpcodes := by
  rcases fetch_cases s with
    ⟨_, e⟩ | ⟨_, _, e⟩ | ⟨_, _, e⟩ | ⟨_, _, e⟩ | ⟨_, _, e⟩ | ⟨_, _, e⟩ | ⟨hop, e⟩ | ⟨_, e⟩ <;>
    rw [h] at e <;> cases e
  exact ⟨rfl, hop⟩

/-- A running engine's instruction never ends in the unknown-opcode fault: its own faults are of the kind
`outOfRange`. -/
theorem exec_run_ne_unknownOpcode {i : Instr} {v : Byte} (hr : s.run = .running)
    (h : exec i s = .next t) : t.run ≠ .faulted (.unknownOpcode v) := by
  rcases exec_ending h with ⟨_, e, _⟩ | ⟨_, rfl⟩ | ⟨_, b, _, rfl, _⟩ | ⟨_, _, _, _, e⟩
  · simp [e, hr]
  · simp
  · simp
  · simp [e]

/-- Settles O11: the fetch raises the fault at every unknown byte and at no other, and no instruction's
meaning raises it. -/
theorem unknownOpcodeFaultsAtDecode : Obligations.UnknownOpcodeFaultsAtDecode := by
  refine ⟨fun op h => identity_of_not_mem_supportedOpcodes h,
    fun s hr h => step_of_fetch_error hr (fetch_unknown h), fun s t v hr h hv => ?_⟩
  rcases step_cases h with ⟨hn, _⟩ | ⟨_, r, hf, rfl⟩ | ⟨_, i, _, he⟩
  · exact absurd hr hn
  · rw [State.raise_run] at hv
    cases hv
    exact opcode_of_fetch_unknownOpcode hf
  · exact absurd hv (exec_run_ne_unknownOpcode hr he)

end Sys2Proof.Machine
end

section
/-! PROOFS. MUL completes (spec/43_alu.md rules R102, R103): the ALU's write to A, then an advance that
stays inside memory. -/

namespace Sys2Proof.Machine

/-- An advance whose successor address is in memory reaches it and takes no fault (rule R77). -/
theorem State.advance_completes {s : State} {n : Nat} (h : s.pc.toNat + 1 + n ≤ 255) :
    (s.advance n).pc.toNat = s.pc.toNat + 1 + n ∧ (s.advance n).run = s.run := by
  rcases s.advance_cases n with ⟨_, hrun, hpc⟩ | ⟨hgt, _⟩
  · exact ⟨hpc, hrun⟩
  · exact absurd h (Nat.not_le.mpr hgt)

/-- Settles O30: with register operands MUL is the ALU's write to A and then an advance by 1 + 2, which
completes from a `pc` of at most 252. The register file's laws give A and every other register; the
operands are read before the write, so A and B may be the same register. -/
theorem mulMultipliesModulo256 : Obligations.MulMultipliesModulo256 := by
  intro s a b hpc
  have hfits : (s.setReg a (aluResult .mul (s.reg a) (s.reg b))).pc.toNat + 1 + 2 ≤ 255 :=
    Nat.add_le_add_right hpc 3
  obtain ⟨hpc', hrun⟩ := State.advance_completes hfits
  refine ⟨_, exec_mul_reg s a b, ?product, fun j hj => ?others,
    hpc', State.advance_mem _ 2, State.advance_out _ 2, hrun⟩
  case product => rw [State.reg_advance, State.reg_setReg_same, toNat_aluResult_mul]
  case others => rw [State.reg_advance, s.reg_setReg_ne hj]

end Sys2Proof.Machine
end

section
/-! PROOFS. PUSH completes (spec/44_stack.md rules R110, R111): the store below the stack pointer, then an
advance that stays inside memory. -/

namespace Sys2Proof.Machine

/-- The address of a PUSH as a number: `SP` minus 1, modulo 256 (rules R36, R116). -/
theorem toNat_pushAddress (s : State) : (pushAddress s).toNat = (s.sp.toNat + 255) % 256 := by
  rw [pushAddress, BitVec.toNat_sub, Nat.add_comm]
  rfl

theorem pushAddress_eq_ofNat (s : State) :
    pushAddress s = BitVec.ofNat 8 ((s.sp.toNat + 255) % 256) := by
  rw [← toNat_pushAddress, BitVec.ofNat_toNat, BitVec.setWidth_eq]

/-- Settles O32: with a register operand PUSH is the push effect and then an advance by 1 + 1, which
completes from a `pc` of at most 253. The effect stores the register as it was before `SP` changed, so
the register may be `SP` itself. -/
theorem pushStoresBelowTheStackPointer : Obligations.PushStoresBelowTheStackPointer := by
  intro s i hpc
  have hfits : (pushEffect i s).pc.toNat + 1 + 1 ≤ 255 := Nat.add_le_add_right hpc 2
  obtain ⟨hpc', hrun⟩ := State.advance_completes hfits
  rw [← pushAddress_eq_ofNat]
  refine ⟨_, exec_push_reg s i, ?stored, fun a ha => ?otherBytes, ?stackPointer,
    fun j hj => ?otherRegisters, hpc', State.advance_out _ 1, hrun⟩
  case stored => rw [State.advance_mem, pushEffect_mem, Memory.read_write_same]
  case otherBytes => rw [State.advance_mem, pushEffect_mem, Memory.read_write_ne _ ha]
  case stackPointer => rw [State.sp_advance, pushEffect_sp, toNat_pushAddress]
  case otherRegisters => rw [State.reg_advance, pushEffect_reg_ne s i hj]

end Sys2Proof.Machine
end

section
/-! PROOFS. The load writes the image from address 0 and memory only (spec/70_reset_and_hazards.md
rule R162). -/

namespace Sys2Proof.Machine

theorem loadImage_of_le {image : List Byte} (h : image.length ≤ 256) (s : State) :
    loadImage image s = .next { s with mem := Memory.writeFrom 0 image s.mem } :=
  if_pos h

theorem Memory.read_writeFrom_zero (image : List Byte) (m : Memory) (a : Byte) :
    (Memory.writeFrom 0 image m).read a = image[a.toNat]?.getD (m.read a) := by
  rw [Memory.read_writeFrom, if_pos (Nat.zero_le _), Nat.sub_zero]

/-- Memory after reset lists no cell, so every address reads 0 (rules R21, R23). -/
@[simp] theorem State.reset_read (a : Byte) : State.reset.mem.read a = 0 := rfl

/-- The first step after a reset with nothing loaded fetches the byte 0, which is no opcode. -/
theorem step_reset : step State.reset = .next (State.reset.raise (.unknownOpcode 0)) := by
  have hbyte : State.reset.mem.read State.reset.pc = 0 := State.reset_read _
  have hfetch := fetch_unknown (s := State.reset) (by rw [hbyte]; decide)
  rw [hbyte] at hfetch
  exact step_of_fetch_error rfl hfetch

/-- Settles O21: the load is one write of the image from address 0, and the law of that write gives each
cell the image's byte there, or what it read before where the image has ended. The empty image leaves
the reset state as it is. -/
theorem loadWritesTheImage : Obligations.LoadWritesTheImage := by
  refine ⟨fun image s h => ?written, fun image t a h ha => ?zeroPastTheImage, ?emptyImage⟩
  case written =>
    exact ⟨_, loadImage_of_le h s, Memory.read_writeFrom_zero image s.mem, rfl, rfl, rfl, rfl⟩
  case zeroPastTheImage =>
    have hlen : image.length ≤ 256 := ha.trans a.isLt.le
    rw [loadImage_of_le hlen] at h
    cases h
    rw [Memory.read_writeFrom_zero, List.getElem?_eq_none ha, Option.getD_none, State.reset_read]
  case emptyImage =>
    exact ⟨State.reset, loadImage_of_le (image := []) (Nat.zero_le 256) State.reset, step_reset⟩

end Sys2Proof.Machine
end

section
/-! PROOFS. Decoding and encoding agree both ways, and the opcode map is the decoder's
(spec/30_encoding.md rules R50 to R54, R72). -/

namespace Sys2Proof

/-- Settles O1: each direction is the decoder's law of the same name. -/
theorem decodeEncodeAgree : Obligations.DecodeEncodeAgree :=
  ⟨decode_encode_append, fun _ _ _ h => eq_encode_append_of_decode h⟩

/-- Settles O2: each word is the encoding of its instruction, so it decodes to it. -/
theorem writtenOutWordsDecode : Obligations.WrittenOutWordsDecode :=
  ⟨decode_encode_append .hlt [], decode_encode_append (.push 3) [], decode_encode_append (.pop 7) [],
    decode_encode_append (.prn 0) [], decode_encode_append (.ldi 0 8) [],
    decode_encode_append (.mul 0 1) []⟩

/-- Settles O4: the identity by the cases of the opcode map, the count as the field `op[7:6]`. -/
theorem decoderIdentityAndCount : Obligations.DecoderIdentityAndCount := by
  intro op
  refine Prod.ext ?identity (operandCount_eq_div op)
  rcases identity_cases op with
    ⟨rfl, e⟩ | ⟨rfl, e⟩ | ⟨rfl, e⟩ | ⟨rfl, e⟩ | ⟨rfl, e⟩ | ⟨rfl, e⟩ | ⟨hop, e⟩
  case inr.inr.inr.inr.inr.inr =>
    change identity op = _
    rw [List.lookup_eq_none_iff.mpr ?unlisted, e, Option.getD_none]
    intro row hrow
    refine bne_iff_ne.mpr fun heq => hop ?_
    rw [heq]
    exact List.mem_map_of_mem (f := Prod.fst) hrow
  all_goals rfl

end Sys2Proof
end

section
/-! PROOFS. A fetch answers an instruction exactly where its bytes stand (spec/40_cycle_and_decode.md
rules R71 to R74), and the step is that instruction's meaning (rule R76). -/

namespace Sys2Proof.Machine

open Sys2Proof.Spec

variable {s t : State}

/-- The code bytes are the bytes of memory at `pc`, `pc + 1` and `pc + 2` that lie in it (rule R50). -/
theorem State.codeBytes_getElem?_eq_some_iff {k : Nat} {b : Byte} :
    s.codeBytes[k]? = some b ↔
      k ≤ 2 ∧ s.pc.toNat + k ≤ 255 ∧ s.mem.read (BitVec.ofNat 8 (s.pc.toNat + k)) = b := by
  have hpc := s.pc.isLt
  rcases (by omega : s.pc.toNat ≤ 253 ∨ s.pc.toNat = 254 ∨ s.pc.toNat = 255) with h | h | h
  · rw [s.codeBytes_three h]
    rcases k with _ | _ | _ | k
    · simp; omega
    · rw [ofNat_pc_one]; simp; omega
    · rw [ofNat_pc_two]; simp; omega
    · simp
  · rw [s.codeBytes_two h]
    rcases k with _ | _ | k
    · simp; omega
    · rw [ofNat_pc_one]; simp; omega
    · simp; omega
  · rw [s.codeBytes_one h]
    rcases k with _ | k
    · simp; omega
    · simp; omega

/-- Bytes stand at `pc` exactly where the code bytes begin with them. -/
theorem hasCode_iff_isPrefix_codeBytes {bs : List Byte} (hlen : bs.length ≤ 3) :
    HasCode s bs ↔ bs <+: s.codeBytes := by
  rw [List.prefix_iff_getElem?]
  constructor
  · intro h k hk
    obtain ⟨hle, hread⟩ := h k bs[k] (List.getElem?_eq_getElem hk)
    exact State.codeBytes_getElem?_eq_some_iff.mpr ⟨by omega, hle, hread⟩
  · intro h k b hb
    obtain ⟨hk, rfl⟩ := List.getElem?_eq_some_iff.mp hb
    exact (State.codeBytes_getElem?_eq_some_iff.mp (h k hk)).2

theorem encode_length_le (i : Instr) : (encode i).length ≤ 3 := by
  cases i <;> simp [encode]

theorem fetch_of_decode {i : Instr} {rest : List Byte} (h : decode s.codeBytes = .ok (i, rest)) :
    fetch s = .ok i := by
  simp [fetch, h]

theorem decode_of_fetch {i : Instr} (h : fetch s = .ok i) :
    ∃ rest, decode s.codeBytes = .ok (i, rest) := by
  cases hd : decode s.codeBytes with
  | error e => simp [fetch, hd] at h
  | ok p =>
    simp only [fetch, hd, Except.ok.injEq] at h
    exact ⟨p.2, by rw [← h]⟩

/-- A fetch answers an instruction exactly where that instruction's bytes stand. -/
theorem fetch_eq_ok_iff {i : Instr} : fetch s = .ok i ↔ HasCode s (encode i) := by
  rw [hasCode_iff_isPrefix_codeBytes (encode_length_le i)]
  constructor
  · intro h
    obtain ⟨rest, hd⟩ := decode_of_fetch h
    exact ⟨rest, (eq_encode_append_of_decode hd).symm⟩
  · rintro ⟨rest, hbytes⟩
    exact fetch_of_decode (by rw [← hbytes, decode_encode_append])

/-- Settles O5: in both readings the fetch answers the instruction, and the step is its meaning. -/
theorem stepRunsDecodedInstruction : Obligations.StepRunsDecodedInstruction :=
  ⟨fun _ _ hr hcode => step_of_fetch_ok hr (fetch_eq_ok_iff.mpr hcode),
    fun _ _ _ hr hd => step_of_fetch_ok hr (fetch_of_decode hd)⟩

end Sys2Proof.Machine
end

section
/-! PROOFS. How a step of a running engine ends, said once, and what follows from it: it always answers,
in one of three ways; only the byte 1 halts; a stopped engine stays stopped
(spec/40_cycle_and_decode.md rules R70, R78, spec/45_halt.md rule R120, spec/70_reset_and_hazards.md
rule R166). -/

namespace Sys2Proof.Machine

variable {s t : State}

/-- Every way a step of a running engine can end: its instruction advances; halts; the fetch faults; the
instruction names a bad register; the advance after a well-formed instruction faults (rule R138). -/
theorem step_ending (hr : s.run = .running) (h : step s = .next t) :
    (∃ i, fetch s = .ok i ∧ i ≠ .hlt ∧ t.run = .running ∧
      t.pc.toNat = s.pc.toNat + (encode i).length) ∨
    (fetch s = .ok .hlt ∧ t = s.halt) ∨
    (∃ r, fetch s = .error r ∧ t = s.raise r) ∨
    (∃ i b, fetch s = .ok i ∧ 8 ≤ b.toNat ∧ t = s.raise (.outOfRange .registerIndex b.toNat) ∧
      ((encode i)[1]? = some b ∨ i.opcode = opcMul ∧ (encode i)[2]? = some b)) ∨
    (∃ i, fetch s = .ok i ∧ i ≠ .hlt ∧ i.WellFormed ∧ 255 < s.pc.toNat + (encode i).length ∧
      t.pc = s.pc ∧ t.run = .faulted (.outOfRange .pcAdvance (s.pc.toNat + (encode i).length))) := by
  rcases step_cases h with ⟨hn, _⟩ | ⟨_, r, hf, ht⟩ | ⟨_, i, hf, he⟩
  · exact absurd hr hn
  · exact .inr (.inr (.inl ⟨r, hf, ht⟩))
  rcases exec_ending he with
    ⟨hi, hrun, hpc⟩ | ⟨rfl, ht⟩ | ⟨_, b, hb, ht, hbyte⟩ | ⟨hi, hw, hgt, hpc, hrun⟩
  · exact .inl ⟨i, hf, hi, hrun.trans hr, hpc⟩
  · exact .inr (.inl ⟨hf, ht⟩)
  · exact .inr (.inr (.inr (.inl ⟨i, b, hf, hb, ht, hbyte⟩)))
  · exact .inr (.inr (.inr (.inr ⟨i, hf, hi, hw, hgt, hpc, hrun⟩)))

/-- Only HLT has no operand. -/
theorem two_le_encode_length {i : Instr} (h : i ≠ .hlt) : 2 ≤ (encode i).length := by
  cases i <;> simp [encode] at h ⊢

/-- A fetched instruction's length is 1 plus `op[7:6]` of the opcode byte at `pc` (rule R58). -/
theorem length_of_fetch {i : Instr} (h : fetch s = .ok i) :
    (encode i).length = 1 + (s.mem.read s.pc).toNat / 64 := by
  rw [encode_length, operandCount_eq_div, (fetch_ok_opcode h).1]

/-- Settles O7: the endings of a running step, the three faulted ones taken together. -/
theorem stepEndsInOneOfThreeWays : Obligations.StepEndsInOneOfThreeWays := by
  refine ⟨fun s hr => ?_, fun s hn => step_of_stopped hn⟩
  obtain ⟨t, h⟩ := step_answers_next s
  refine ⟨t, h, ?_⟩
  rcases step_ending hr h with
    ⟨i, hf, _, hrun, hpc⟩ | ⟨_, rfl⟩ | ⟨r, _, rfl⟩ | ⟨i, b, _, _, rfl, _⟩ | ⟨i, _, _, _, _, hpc, hrun⟩
  · refine .inl ⟨hrun, ?_⟩
    rw [hpc, length_of_fetch hf, Nat.add_assoc]
  · exact .inr (.inl ⟨rfl, rfl⟩)
  · exact .inr (.inr ⟨_, rfl, rfl⟩)
  · exact .inr (.inr ⟨_, rfl, rfl⟩)
  · exact .inr (.inr ⟨_, hrun, hpc⟩)

theorem run_of_stopped (h : s.Stopped) (k : Nat) : Host.Core.run Sys2Proof.core k s = .next s := by
  induction k with
  | zero => exact run_zero s
  | succ k ih => rw [run_succ (step_of_stopped h), ih]

/-- Settles O8, by induction on the number of steps. -/
theorem stoppedEngineNeverChanges : Obligations.StoppedEngineNeverChanges :=
  fun _ h k => run_of_stopped h k

theorem step_of_hlt_byte (hr : s.run = .running) (hop : s.mem.read s.pc = 1) :
    step s = .next s.halt :=
  step_of_fetch_ok hr (fetch_hlt hop)

/-- Settles O34: the step at a HLT byte halts, and the halted engine stays as it is. -/
theorem hltHaltsWithNothingElseChanged : Obligations.HltHaltsWithNothingElseChanged := by
  refine ⟨exec_hlt, fun s hr hop => ⟨step_of_hlt_byte hr hop, fun k => ?_⟩⟩
  have hstopped : s.halt.Stopped := by simp
  rw [run_succ (step_of_hlt_byte hr hop), run_of_stopped hstopped]
  rfl

/-- Settles O10: at the byte 1 the step halts; of the endings of a step only the one that fetched HLT
is a halt. -/
theorem haltsExactlyAtTheHaltByte : Obligations.HaltsExactlyAtTheHaltByte := by
  intro s t hr h
  constructor
  · intro (hend : t.run = .halted)
    rcases step_ending hr h with
      ⟨i, _, _, hrun, _⟩ | ⟨hf, _⟩ | ⟨r, _, rfl⟩ | ⟨i, b, _, _, rfl, _⟩ | ⟨i, _, _, _, _, _, hrun⟩
    · cases hrun.symm.trans hend
    · exact (fetch_ok_opcode hf).1
    · cases hend
    · cases hend
    · cases hrun.symm.trans hend
  · intro hop
    rw [step_of_hlt_byte hr hop] at h
    cases h
    rfl

end Sys2Proof.Machine
end

section
/-! PROOFS. Every run ends (spec/40_cycle_and_decode.md rule R81): a step that leaves the engine running
raises `pc` by at least 2, and `pc` stays below 256. -/

namespace Sys2Proof.Machine

variable {s t : State}

theorem step_raises_pc (h : step s = .next t) (hrun : t.run = .running) :
    s.pc.toNat + 2 ≤ t.pc.toNat := by
  by_cases hr : s.run = .running
  · rcases step_ending hr h with
      ⟨i, _, hi, _, hpc⟩ | ⟨_, rfl⟩ | ⟨r, _, rfl⟩ | ⟨i, b, _, _, rfl, _⟩ | ⟨i, _, _, _, _, _, hf⟩
    · have := two_le_encode_length hi
      omega
    · cases hrun
    · cases hrun
    · cases hrun
    · cases hf.symm.trans hrun
  · rw [step_of_stopped hr] at h
    cases h
    exact absurd hrun hr

/-- A run has stopped once twice its steps cover the addresses from `pc` to the end of memory. -/
theorem run_stops (k : Nat) (s : State) (hk : 256 ≤ s.pc.toNat + 2 * k) :
    ∃ t : State, Host.Core.run Sys2Proof.core k s = .next t ∧ t.Stopped := by
  induction k generalizing s with
  | zero => exact absurd hk (Nat.not_le.mpr s.pc.isLt)
  | succ k ih =>
    obtain ⟨t, h⟩ := step_answers_next s
    rw [run_succ h]
    by_cases hrun : t.run = .running
    · have := step_raises_pc h hrun
      exact ih t (by omega)
    · exact ⟨t, run_of_stopped hrun k, hrun⟩

/-- Settles O9: 128 steps of at least 2 cover the 256 addresses. -/
theorem everyRunEndsWithin128Steps : Obligations.EveryRunEndsWithin128Steps :=
  ⟨fun s k hk => run_stops k s (by omega), fun _ _ h hrun => step_raises_pc h hrun⟩

end Sys2Proof.Machine
end

section
/-! PROOFS. The faults of a step, and what taking one keeps (spec/60_exceptions.md rules R130 to R135). -/

namespace Sys2Proof.Machine

open Sys2Proof.Spec

variable {s t : State}

/-- An operand of the opcode at `pc` would lie above address 255 (rules R35, R74). -/
def State.OperandPastTop (s : State) : Prop :=
  (s.mem.read s.pc ∈ [(130 : Byte), 162] ∧ 254 ≤ s.pc.toNat) ∨
    (s.mem.read s.pc ∈ [(69 : Byte), 70, 71] ∧ s.pc.toNat = 255)

/-- The two faults a fetch can raise, each with the place where it does. -/
theorem fetch_error_cases {r : FaultReason} (h : fetch s = .error r) :
    (r = .unknownOpcode (s.mem.read s.pc) ∧ s.mem.read s.pc ∉ supportedOpcodes) ∨
    (r = .outOfRange .operandFetch 256 ∧ s.OperandPastTop) := by
  rcases fetch_cases s with
    ⟨_, e⟩ | ⟨_, _, e⟩ | ⟨_, _, e⟩ | ⟨_, _, e⟩ | ⟨_, _, e⟩ | ⟨_, _, e⟩ | ⟨hop, e⟩ | ⟨hpast, e⟩ <;>
    rw [h] at e <;> cases e
  · exact .inl ⟨rfl, hop⟩
  · refine .inr ⟨rfl, ?_⟩
    rcases hpast with ⟨hop, hpc⟩ | ⟨hop, hpc⟩
    · exact .inl ⟨by rcases hop with e | e <;> rw [e] <;> decide, hpc⟩
    · exact .inr ⟨by rcases hop with e | e | e <;> rw [e] <;> decide, hpc⟩

theorem State.OperandPastTop.supported (h : s.OperandPastTop) :
    s.mem.read s.pc ∈ supportedOpcodes := by
  have hTwo : ∀ op ∈ [(130 : Byte), 162], op ∈ supportedOpcodes := by decide
  have hOne : ∀ op ∈ [(69 : Byte), 70, 71], op ∈ supportedOpcodes := by decide
  rcases h with ⟨hop, _⟩ | ⟨hop, _⟩
  · exact hTwo _ hop
  · exact hOne _ hop

theorem State.OperandPastTop.lt (h : s.OperandPastTop) :
    256 < s.pc.toNat + (1 + (s.mem.read s.pc).toNat / 64) := by
  have hTwo : ∀ op ∈ [(130 : Byte), 162], op.toNat / 64 = 2 := by decide
  have hOne : ∀ op ∈ [(69 : Byte), 70, 71], op.toNat / 64 = 1 := by decide
  rcases h with ⟨hop, hpc⟩ | ⟨hop, hpc⟩
  · rw [hTwo _ hop]; omega
  · rw [hOne _ hop]; omega

/-- The operand-fetch fault is raised at its place: no instruction fits there, and the opcode is one of
the six. -/
theorem fetch_of_operandPastTop (h : s.OperandPastTop) :
    fetch s = .error (.outOfRange .operandFetch 256) := by
  cases hf : fetch s with
  | ok i =>
    have hfits := (fetch_ok_opcode hf).2
    rw [length_of_fetch hf] at hfits
    exact absurd h.lt (Nat.not_lt.mpr hfits)
  | error r =>
    rcases fetch_error_cases hf with ⟨_, hop⟩ | ⟨rfl, _⟩
    · exact absurd h.supported hop
    · rfl

/-- Every fault a step of a running engine can end in: one of the two the fetch raises, a bad register
index, both with nothing but `run` changed, or a failed advance. -/
theorem step_fault_cases {r : FaultReason} (hr : s.run = .running) (h : step s = .next t)
    (ht : t.run = .faulted r) :
    (r = .unknownOpcode (s.mem.read s.pc) ∧ s.mem.read s.pc ∉ supportedOpcodes ∧ t = s.raise r) ∨
    (r = .outOfRange .operandFetch 256 ∧ s.OperandPastTop ∧ t = s.raise r) ∨
    (∃ i b, fetch s = .ok i ∧ r = .outOfRange .registerIndex b.toNat ∧ 8 ≤ b.toNat ∧ t = s.raise r ∧
      ((encode i)[1]? = some b ∨ i.opcode = opcMul ∧ (encode i)[2]? = some b)) ∨
    (∃ i, fetch s = .ok i ∧ i ≠ .hlt ∧ i.WellFormed ∧ 255 < s.pc.toNat + (encode i).length ∧
      t.pc = s.pc ∧ r = .outOfRange .pcAdvance (s.pc.toNat + (encode i).length)) := by
  rcases step_ending hr h with
    ⟨i, _, _, hrun, _⟩ | ⟨_, rfl⟩ | ⟨r', hf, rfl⟩ | ⟨i, b, hf, hb, rfl, hbyte⟩ |
    ⟨i, hf, hi, hw, hgt, hpc, hrun⟩
  · cases hrun.symm.trans ht
  · cases ht
  · cases ht
    rcases fetch_error_cases hf with ⟨e, hop⟩ | ⟨e, hpast⟩
    · exact .inl ⟨e, hop, rfl⟩
    · exact .inr (.inl ⟨e, hpast, rfl⟩)
  · cases ht
    exact .inr (.inr (.inl ⟨i, b, hf, rfl, hb, rfl, hbyte⟩))
  · cases hrun.symm.trans ht
    exact .inr (.inr (.inr ⟨i, hf, hi, hw, hgt, hpc, rfl⟩))

/-- Settles O12: the fetch raises the fault at those places, and no other fault of a step has its
kind. -/
theorem operandFetchPastTheTopFaults : Obligations.OperandFetchPastTheTopFaults := by
  refine ⟨fun s hr hpast => step_of_fetch_error hr (fetch_of_operandPastTop hpast),
    fun s t a hr h ht => ?_⟩
  rcases step_fault_cases hr h ht with
    ⟨e, _⟩ | ⟨e, hpast, _⟩ | ⟨i, b, _, e, _⟩ | ⟨i, _, _, _, _, _, e⟩ <;> cases e
  exact ⟨rfl, hpast⟩

/-- Settles O16: the dispatcher's answer is its definition, and no fault of a step has its kind. -/
theorem unsupportedAluOperationNeverOccurs : Obligations.UnsupportedAluOperationNeverOccurs := by
  refine ⟨fun _ _ _ _ => rfl, fun s t name hr h ht => ?_⟩
  rcases step_fault_cases hr h ht with
    ⟨e, _⟩ | ⟨e, _⟩ | ⟨i, b, _, e, _⟩ | ⟨i, _, _, _, _, _, e⟩ <;> cases e

section
variable {r : Byte} (h : 8 ≤ r.toNat) (s : State)
include h

/-! A register operand above 7 faults before any effect (rule R75). -/

theorem exec_ldi_of_ge (imm : Byte) :
    exec (.ldi r imm) s = .next (s.raise (.outOfRange .registerIndex r.toNat)) := by
  rw [exec, execLdi, regOperand_of_ge h]; rfl

theorem exec_prn_of_ge : exec (.prn r) s = .next (s.raise (.outOfRange .registerIndex r.toNat)) := by
  rw [exec, execPrn, regOperand_of_ge h]; rfl

theorem exec_push_of_ge :
    exec (.push r) s = .next (s.raise (.outOfRange .registerIndex r.toNat)) := by
  rw [exec, execPush, regOperand_of_ge h]; rfl

theorem exec_pop_of_ge : exec (.pop r) s = .next (s.raise (.outOfRange .registerIndex r.toNat)) := by
  rw [exec, execPop, regOperand_of_ge h]; rfl

theorem exec_mul_of_first_ge (b : Byte) :
    exec (.mul r b) s = .next (s.raise (.outOfRange .registerIndex r.toNat)) := by
  rw [exec, execMul, regOperand_of_ge h]; rfl

theorem exec_mul_of_second_ge {a : Byte} (ha : a.toNat ≤ 7) :
    exec (.mul a r) s = .next (s.raise (.outOfRange .registerIndex r.toNat)) := by
  obtain ⟨i, rfl⟩ := exists_reg_of_le ha
  rw [exec, execMul, regOperand_ofNat, regOperand_of_ge h]; rfl

end

/-- Settles O13: the register-operand check comes before any effect. MUL checks its second operand
where the first is a register. -/
theorem registerIndexAboveSevenFaults : Obligations.RegisterIndexAboveSevenFaults :=
  fun s _ o hr => ⟨exec_ldi_of_ge hr s o, exec_prn_of_ge hr s, exec_push_of_ge hr s,
    exec_pop_of_ge hr s, exec_mul_of_first_ge hr s o, fun ho => exec_mul_of_second_ge hr s ho⟩

/-- An ill-formed instruction faults in the same way in every state. -/
theorem exec_of_not_wellFormed {i : Instr} (h : ¬ i.WellFormed) :
    ∃ r, ∀ s, exec i s = .next (s.raise r) := by
  cases i with
  | hlt => exact absurd trivial h
  | push r => exact ⟨_, exec_push_of_ge (Nat.lt_of_not_le h)⟩
  | pop r => exact ⟨_, exec_pop_of_ge (Nat.lt_of_not_le h)⟩
  | prn r => exact ⟨_, exec_prn_of_ge (Nat.lt_of_not_le h)⟩
  | ldi r imm => exact ⟨_, fun s => exec_ldi_of_ge (Nat.lt_of_not_le h) s imm⟩
  | mul a b =>
    by_cases ha : a.toNat ≤ 7
    · have hb : ¬ b.toNat ≤ 7 := fun hb => h ⟨ha, hb⟩
      exact ⟨_, fun s => exec_mul_of_second_ge (Nat.lt_of_not_le hb) s ha⟩
    · exact ⟨_, fun s => exec_mul_of_first_ge (Nat.lt_of_not_le ha) s b⟩

/-- The successor of address 0 over an instruction's operands lies in memory. -/
theorem operandCount_opcode_le (i : Instr) : operandCount i.opcode ≤ 2 := by
  have := encode_length i
  have := encode_length_le i
  omega

/-- Settles O14: the effect of a well-formed instruction does not look at `pc`, so the one at `pc` 0,
whose advance completes, is the one kept by the advance that faults. -/
theorem pcAdvancePastTheTopFaults : Obligations.PcAdvancePastTheTopFaults := by
  intro s i hw hi hgt
  obtain ⟨f, hexec, hcommutes, hpc, hrun⟩ := exec_effect hw hi
  have hzero : (f { s with pc := 0 }).pc.toNat = 0 := by rw [hpc]; rfl
  have hfits : (f { s with pc := 0 }).pc.toNat + 1 + operandCount i.opcode ≤ 255 := by
    have := operandCount_opcode_le i
    omega
  have hpast : 255 < (f s).pc.toNat + 1 + operandCount i.opcode := by
    rw [hpc, Nat.add_assoc, ← encode_length]
    exact hgt
  obtain ⟨hpc', hrun'⟩ := State.advance_completes hfits
  refine ⟨_, hexec _, ?_, ?_, ?_⟩
  · rw [hpc', hzero, Nat.zero_add, encode_length]
  · rw [hrun', hrun]
  · rw [hexec, State.advance_of_gt _ hpast, State.advance_of_le _ hfits, hcommutes s 0, State.raise, hpc,
      Nat.add_assoc, ← encode_length]

/-- Settles O15: of the faults of a step only the failed advance keeps an effect, that of the fetched
instruction, as O14 states it. -/
theorem faultEntryKeepsState : Obligations.FaultEntryKeepsState := by
  intro s t r hr h ht
  rcases step_fault_cases hr h ht with
    ⟨rfl, _, rfl⟩ | ⟨rfl, _, rfl⟩ | ⟨i, b, _, rfl, _, rfl, _⟩ | ⟨i, hf, hi, hw, hgt, hpc, rfl⟩
  · exact ⟨rfl, fun _ => rfl, fun a e => nomatch e⟩
  · exact ⟨rfl, fun _ => rfl, fun a e => nomatch e⟩
  · exact ⟨rfl, fun _ => rfl, fun a e => nomatch e⟩
  · obtain ⟨u, hu, _, hurun, hkept⟩ := pcAdvancePastTheTopFaults s i hw hi hgt
    rw [step_of_fetch_ok hr hf, hkept] at h
    cases h
    exact ⟨rfl, fun hne => absurd rfl (hne _),
      fun a _ => ⟨i, u, fetch_eq_ok_iff.mp hf, hu, hurun.trans hr, rfl⟩⟩

end Sys2Proof.Machine
end

section
/-! PROOFS. The stop record stays sound (spec/60_exceptions.md rules R130 to R133). -/

namespace Sys2Proof.Machine

variable {s t : State}

/-! The operand bytes of a fetched instruction stand at `pc + 1` and `pc + 2` (rule R52). -/

theorem read_first_of_fetch {i : Instr} {b : Byte} (h : fetch s = .ok i)
    (hb : (encode i)[1]? = some b) : s.mem.read (s.pc + 1) = b := by
  obtain ⟨_, hread⟩ := fetch_eq_ok_iff.mp h 1 b hb
  rwa [ofNat_pc_one] at hread

theorem read_second_of_fetch {i : Instr} {b : Byte} (h : fetch s = .ok i)
    (hb : (encode i)[2]? = some b) : s.mem.read (s.pc + 2) = b := by
  obtain ⟨_, hread⟩ := fetch_eq_ok_iff.mp h 2 b hb
  rwa [ofNat_pc_two] at hread

/-- Settles O18: a step that leaves the engine running has nothing to record, a halt is at the HLT byte,
and each fault of a step has its value at its place. -/
theorem stepKeepsStopRecord : Obligations.StepKeepsStopRecord := by
  intro s t hs h
  by_cases hr : s.run = .running
  case neg =>
    rw [step_of_stopped hr] at h
    cases h
    exact hs
  cases ht : t.run with
  | running => simp only [State.StopRecordOk, ht]
  | halted =>
    have hop := (haltsExactlyAtTheHaltByte s t hr h).mp ht
    rw [step_of_hlt_byte hr hop] at h
    cases h
    exact hop
  | faulted r =>
    rcases step_fault_cases hr h ht with
      ⟨rfl, hop, rfl⟩ | ⟨rfl, hpast, rfl⟩ | ⟨i, b, hf, rfl, hb, rfl, hbyte⟩ |
      ⟨i, hf, hi, hw, hgt, hpc, rfl⟩
    · exact ⟨rfl, hop⟩
    · exact ⟨rfl, hpast⟩
    · refine ⟨hb, ?_⟩
      rcases hbyte with h1 | ⟨hop, h2⟩
      · exact .inl (congrArg BitVec.toNat (read_first_of_fetch hf h1))
      · exact .inr ⟨(fetch_ok_opcode hf).1.trans hop,
          congrArg BitVec.toNat (read_second_of_fetch hf h2)⟩
    · have hfits := (fetch_ok_opcode hf).2
      have hlen := encode_length_le i
      have hlen' := two_le_encode_length hi
      simp only [State.StopRecordOk, ht, hpc]
      omega

end Sys2Proof.Machine
end

section
/-! PROOFS. The form of memory (spec/20_memory.md rules R21, R30): every step keeps it, the start meets it,
and in that form memory is what it reads. -/

namespace Sys2Proof.Machine

variable {s t : State}

/-- Settles O17: a step leaves memory as it is or makes PUSH's one write, and a write keeps the form. -/
theorem stepKeepsMemoryForm : Obligations.StepKeepsMemoryForm := by
  intro s t hwf h
  rcases step_cases h with ⟨_, rfl⟩ | ⟨_, r, _, rfl⟩ | ⟨_, i, _, he⟩
  · exact hwf
  · exact hwf
  · rcases exec_mem_cases he with hmem | ⟨r, v, _, hmem⟩ <;> rw [hmem]
    · exact hwf
    · exact Memory.write_wf hwf _ v

/-- Settles O19: reset lists no cell and records no stop, and a load only writes memory. -/
theorem startMeetsInvariants : Obligations.StartMeetsInvariants := by
  have hreset : State.reset.mem.Wf := ⟨List.Pairwise.nil, fun _ hc => nomatch hc⟩
  refine ⟨⟨hreset, trivial⟩, fun image t h => ?_⟩
  unfold loadImage at h
  split at h <;> cases h
  exact ⟨Memory.writeFrom_wf hreset _ image, trivial⟩

/-- In strictly rising order a listed key reads as its value. -/
theorem Memory.find_of_mem {m : Memory} (h : m.Pairwise (fun c d => c.1 < d.1)) {c : Host.Cell}
    (hc : c ∈ m) : Memory.find c.1 m = c.2 := by
  induction m with
  | nil => cases hc
  | cons d m ih =>
    obtain ⟨hd, hm⟩ := List.pairwise_cons.mp h
    rcases List.mem_cons.mp hc with rfl | hc
    · exact if_pos rfl
    · exact (if_neg (hd c hc).ne).trans (ih hm hc)

theorem Memory.mem_of_find_ne {m : Memory} {a : Nat} (h : Memory.find a m ≠ Memory.unlisted) :
    (a, Memory.find a m) ∈ m := by
  induction m with
  | nil => exact absurd rfl h
  | cons d m ih =>
    obtain ⟨k, v⟩ := d
    by_cases hk : k = a
    · subst hk
      simp [Memory.find]
    · simp only [Memory.find, if_neg hk] at h ⊢
      exact List.mem_cons_of_mem _ (ih h)

/-- The cells of a canonical memory, told by its reads: the addresses that do not read as an unlisted one,
each with the byte it reads. -/
theorem Memory.mem_iff_read {m : Memory} (h : m.Wf) {c : Host.Cell} :
    c ∈ m ↔ c.1 < 256 ∧ c.2 ≠ Memory.unlisted ∧ m.read (BitVec.ofNat 8 c.1) = c.2 := by
  have hread (ha : c.1 < 256) : m.read (BitVec.ofNat 8 c.1) = Memory.find c.1 m := by
    rw [Memory.read, BitVec.toNat_ofNat, Nat.mod_eq_of_lt ha]
  constructor
  · intro hc
    obtain ⟨ha, hv⟩ := h.2 c hc
    exact ⟨ha, hv, (hread ha).trans (Memory.find_of_mem h.1 hc)⟩
  · rintro ⟨ha, hv, hr⟩
    rw [hread ha] at hr
    rw [← hr] at hv
    have hmem := Memory.mem_of_find_ne hv
    rwa [hr] at hmem

/-- Settles O24: canonical memories that read the same have the same cells, and their order is fixed. -/
theorem memoryIsItsReads : Obligations.MemoryIsItsReads := by
  intro m m' h h' hread
  have hperm : m.Perm m' := by
    refine (List.perm_ext_iff_of_nodup ?_ ?_).mpr fun c => ?_
    · exact h.1.imp fun hlt heq => hlt.ne (congrArg Prod.fst heq)
    · exact h'.1.imp fun hlt heq => hlt.ne (congrArg Prod.fst heq)
    · rw [Memory.mem_iff_read h, Memory.mem_iff_read h', hread]
  exact hperm.eq_of_pairwise (fun c d _ _ hcd hdc => absurd hcd hdc.asymm) h.1 h'.1

end Sys2Proof.Machine
end

section
/-! PROOFS. What a step writes to memory and what it reads of it (spec/20_memory.md rules R32, R36, R42). -/

namespace Sys2Proof.Machine

open Sys2Proof.Spec

variable {s t : State}

/-- Settles O27: a step that changes memory ran an instruction that did, which is PUSH with its one
write. -/
theorem onlyPushWritesMemory : Obligations.OnlyPushWritesMemory := by
  intro s t a h hne
  rcases step_cases h with ⟨_, rfl⟩ | ⟨_, r, _, rfl⟩ | ⟨hr, i, hf, he⟩
  · exact absurd rfl hne
  · exact absurd rfl hne
  · rcases exec_mem_cases he with hmem | ⟨r, v, rfl, hmem⟩
    · exact absurd (by rw [hmem]) hne
    · refine ⟨hr, (fetch_ok_opcode hf).1, ?_⟩
      by_contra ha
      rw [hmem] at hne
      exact hne (Memory.read_write_ne _ ha v)

theorem exec_push_completes {i : RegIdx} (hpc : s.pc.toNat ≤ 253) :
    exec (.push (regByte i)) s = .next { pushEffect i s with pc := s.pc + 2 } := by
  have hfits : (pushEffect i s).pc.toNat + 1 + 1 ≤ 255 := Nat.add_le_add_right hpc 2
  rw [← ofNat_pc_two]
  exact (exec_push_reg s i).trans (congrArg _ (State.advance_of_le _ hfits))

/-- Settles O28: the fetch before the store gives the PUSH, and the fetch after it reads memory as the
store left it. -/
theorem fetchSeesThePushedByte : Obligations.FetchSeesThePushedByte := by
  intro s i hr hpc hop hreg
  have hfetch : fetch s = .ok (.push (regByte i)) := by
    rcases fetch_f1 (s := s) (build := .push) (fun rest => by rw [hop]; exact decode_push rest) with
      ⟨_, hf⟩ | ⟨htop, _⟩
    · rw [hf, hreg]
    · omega
  refine ⟨_, (step_of_fetch_ok hr hfetch).trans (exec_push_completes hpc), hr, rfl,
    fun k hk hle => ?_⟩
  rw [State.codeBytes_getElem?_eq_some_iff]
  exact ⟨hk, hle, s.mem.read_write _ _ _⟩

/-- A fetch depends only on `pc` and the bytes there. -/
theorem fetch_congr (hpc : t.pc = s.pc)
    (hread : ∀ k ≤ 2, s.pc.toNat + k ≤ 255 →
      t.mem.read (BitVec.ofNat 8 (s.pc.toNat + k)) = s.mem.read (BitVec.ofNat 8 (s.pc.toNat + k))) :
    fetch t = fetch s := by
  have hbytes : t.codeBytes = s.codeBytes := by
    refine List.ext_getElem? fun k => Option.ext fun b => ?_
    rw [State.codeBytes_getElem?_eq_some_iff, State.codeBytes_getElem?_eq_some_iff, hpc]
    refine and_congr_right fun hk => and_congr_right fun hle => ?_
    rw [hread k hk hle]
  rw [fetch, fetch, hbytes, hpc]

/-- The state with another memory. -/
def State.withMem (s : State) (m : Memory) : State := { s with mem := m }

/-- An advance looks only at `pc` and `run` (rule R77). -/
theorem State.advance_mk (s : State) (n : Nat) (m : Memory) (x : Vector Byte 8) (o : List Byte) :
    State.advance ⟨m, x, s.pc, s.run, o⟩ n = ⟨m, x, (s.advance n).pc, (s.advance n).run, o⟩ := by
  by_cases h : s.pc.toNat + 1 + n ≤ 255
  · rw [s.advance_of_le h]
    exact State.advance_of_le _ h
  · have hgt := Nat.lt_of_not_le h
    rw [s.advance_of_gt hgt]
    exact State.advance_of_gt _ hgt

theorem State.advance_withMem (s : State) (m : Memory) (n : Nat) :
    (s.withMem m).advance n = (s.advance n).withMem m := by
  rw [withMem, withMem, advance_mk, advance_x, advance_out]

theorem pushEffect_withMem (i : RegIdx) (s : State) (m : Memory) :
    pushEffect i (s.withMem m) =
      (pushEffect i s).withMem (m.write (pushAddress s) (s.reg i)) := rfl

theorem popEffect_withMem {m : Memory} (h : m.read s.sp = s.mem.read s.sp) (i : RegIdx) :
    popEffect i (s.withMem m) = (popEffect i s).withMem m := by
  have hread : (s.withMem m).mem.read (popAddress (s.withMem m)) = s.mem.read (popAddress s) := h
  rw [popEffect, hread]
  rfl

/-- A meaning uses memory only for the byte at `SP`: with another memory that has this byte, the next
state is the same but for its memory, on which the same write was made, if any. -/
theorem exec_withMem {i : Instr} (h : exec i s = .next t) {m : Memory}
    (hsp : m.read s.sp = s.mem.read s.sp) :
    ∃ w : Memory → Memory, (w = id ∨ ∃ a v, w = fun m => m.write a v) ∧ t.mem = w s.mem ∧
      exec i (s.withMem m) = .next (t.withMem (w m)) := by
  by_cases hw : i.WellFormed
  case neg =>
    obtain ⟨r, hr⟩ := exec_of_not_wellFormed hw
    rw [hr] at h
    cases h
    exact ⟨id, .inl rfl, rfl, hr _⟩
  cases i with
  | hlt => cases h; exact ⟨id, .inl rfl, rfl, rfl⟩
  | push r =>
    obtain ⟨j, rfl⟩ := exists_reg_of_le hw
    rw [exec_push_reg] at h ⊢
    cases h
    refine ⟨_, .inr ⟨pushAddress s, s.reg j, rfl⟩, State.advance_mem _ 1, ?_⟩
    rw [pushEffect_withMem, State.advance_withMem]
  | pop r =>
    obtain ⟨j, rfl⟩ := exists_reg_of_le hw
    rw [exec_pop_reg] at h ⊢
    cases h
    refine ⟨id, .inl rfl, State.advance_mem _ 1, ?_⟩
    rw [popEffect_withMem hsp, State.advance_withMem, id]
  | prn r =>
    obtain ⟨j, rfl⟩ := exists_reg_of_le hw
    rw [exec_prn_reg] at h ⊢
    cases h
    exact ⟨id, .inl rfl, State.advance_mem _ 1,
      congrArg _ (State.advance_withMem (s.emit (s.reg j)) m 1)⟩
  | ldi r imm =>
    obtain ⟨j, rfl⟩ := exists_reg_of_le hw
    rw [exec_ldi_reg] at h ⊢
    cases h
    exact ⟨id, .inl rfl, State.advance_mem _ 2,
      congrArg _ (State.advance_withMem (s.setReg j imm) m 2)⟩
  | mul a b =>
    obtain ⟨j, rfl⟩ := exists_reg_of_le hw.1
    obtain ⟨k, rfl⟩ := exists_reg_of_le hw.2
    rw [exec_mul_reg] at h ⊢
    cases h
    exact ⟨id, .inl rfl, State.advance_mem _ 2, congrArg _
      (State.advance_withMem (s.setReg j (aluResult .mul (s.reg j) (s.reg k))) m 2)⟩

/-- Settles O26: the fetch is the same with either memory, and so is the meaning but for the memory it
leaves: one write at most, of the same byte at the same address. -/
theorem onlyListedAddressesAreRead : Obligations.OnlyListedAddressesAreRead := by
  intro s t m hr hcode hsp h
  have hfetch : fetch (s.withMem m) = fetch s := fetch_congr rfl hcode
  rcases step_cases h with ⟨hn, _⟩ | ⟨_, r, hf, rfl⟩ | ⟨_, i, hf, he⟩
  · exact absurd hr hn
  · exact ⟨_, step_of_fetch_error hr (hfetch.trans hf), rfl, rfl, rfl, rfl, fun _ => .inr ⟨rfl, rfl⟩⟩
  · obtain ⟨w, hw, hmem, he'⟩ := exec_withMem he hsp
    have hstep : step (s.withMem m) = exec i (s.withMem m) :=
      step_of_fetch_ok hr (hfetch.trans hf)
    refine ⟨_, hstep.trans he', rfl, rfl, rfl, rfl, fun a => ?_⟩
    change (w m).read a = _ ∨ (w m).read a = _ ∧ _
    rw [hmem]
    rcases hw with rfl | ⟨b, v, rfl⟩
    · exact .inr ⟨rfl, rfl⟩
    · by_cases hab : a = b
      · subst hab
        exact .inl (by rw [Memory.read_write_same, Memory.read_write_same])
      · exact .inr ⟨m.read_write_ne hab v, s.mem.read_write_ne hab v⟩

end Sys2Proof.Machine
end

section
/-! PROOFS. Reset and load (spec/10_state.md rule R23, spec/70_reset_and_hazards.md rule R164). -/

namespace Sys2Proof.Machine

/-- Reset sets `SP` in a register file of zeros. -/
theorem State.reset_reg (i : RegIdx) :
    State.reset.reg i = if i = spIndex then Config.spReset else 0 := by
  revert i; decide

@[simp] theorem State.reset_sp : State.reset.sp = 0xF4 := State.reset_reg spIndex

/-- Settles O20: each piece of state from reset's definition. -/
theorem resetValues : Obligations.ResetValues :=
  ⟨State.reset_read, fun i hi => (State.reset_reg i).trans (if_neg hi), State.reset_sp,
    State.reset_sp, rfl, rfl, rfl⟩

/-- Settles O22: an image that fits is loaded, and any other is refused. -/
theorem longImageIsRefused : Obligations.LongImageIsRefused := by
  intro image s
  by_cases h : image.length ≤ 256
  · rw [loadImage_of_le h]
    exact ⟨(fun e => nomatch e), fun hgt => absurd h (Nat.not_le.mpr hgt)⟩
  · exact ⟨fun _ => Nat.lt_of_not_le h, fun _ => if_neg h⟩

end Sys2Proof.Machine
end

section
/-! PROOFS. LDI and PRN complete (spec/41_load_immediate.md rules R90, R91, spec/42_output.md rule R95), and
the ALU writes register A only (spec/43_alu.md rules R100 to R106). -/

namespace Sys2Proof.Machine

/-- Settles O29: with a register operand LDI is the register write and then an advance by 1 + 2, which
completes from a `pc` of at most 252. -/
theorem ldiLoadsTheLiteral : Obligations.LdiLoadsTheLiteral := by
  intro s i imm hpc
  have hfits : (s.setReg i imm).pc.toNat + 1 + 2 ≤ 255 := Nat.add_le_add_right hpc 3
  obtain ⟨hpc', hrun⟩ := State.advance_completes hfits
  refine ⟨_, exec_ldi_reg s i imm, ?target, fun j hj => ?others, hpc', State.advance_mem _ 2,
    State.advance_out _ 2, hrun⟩
  case target => rw [State.reg_advance, State.reg_setReg_same]
  case others => rw [State.reg_advance, s.reg_setReg_ne hj]

/-- Settles O31: with a register operand PRN emits the register and then advances by 1 + 1, which
completes from a `pc` of at most 253. -/
theorem prnEmitsTheRegister : Obligations.PrnEmitsTheRegister := by
  intro s i hpc
  have hfits : (s.emit (s.reg i)).pc.toNat + 1 + 1 ≤ 255 := Nat.add_le_add_right hpc 2
  obtain ⟨hpc', hrun⟩ := State.advance_completes hfits
  exact ⟨_, exec_prn_reg s i, State.advance_out _ 1, State.advance_x _ 1, hpc',
    State.advance_mem _ 1, hrun⟩

theorem toNat_aluResult_add (v w : Byte) :
    (aluResult .add v w).toNat = (v.toNat + w.toNat) % 256 :=
  toNat_truncate (v.toNat + w.toNat)

/-- Settles O38: either operation is one write of register A; the classification by the instruction's
cases. -/
theorem aluWritesOnlyRegisterA : Obligations.AluWritesOnlyRegisterA := by
  refine ⟨fun s a b => ⟨_, _, rfl, rfl, ?product, ?sum, fun j hj => ⟨?_, ?_⟩,
    rfl, rfl, rfl, rfl, rfl, rfl, rfl, rfl⟩, fun i => ?classified⟩
  case product => rw [State.reg_setReg_same, toNat_aluResult_mul]
  case sum => rw [State.reg_setReg_same, toNat_aluResult_add]
  case classified => cases i <;> simp [isAluOperation]
  all_goals exact s.reg_setReg_ne hj _

end Sys2Proof.Machine
end

section
/-! PROOFS. The stack: POP completes, undoes PUSH, and both wrap (spec/44_stack.md rules R112, R114,
spec/20_memory.md rule R36, spec/10_state.md rule R24). -/

namespace Sys2Proof.Machine

open Sys2Proof.Spec

variable {s : State} {i : RegIdx}

theorem exec_pop_completes (hpc : s.pc.toNat ≤ 253) :
    exec (.pop (regByte i)) s = .next { popEffect i s with pc := s.pc + 2 } := by
  have hfits : (popEffect i s).pc.toNat + 1 + 1 ≤ 255 := Nat.add_le_add_right hpc 2
  rw [← ofNat_pc_two]
  exact (exec_pop_reg s i).trans (congrArg _ (State.advance_of_le _ hfits))

theorem popEffect_sp_of_ne (h : i ≠ spIndex) : (popEffect i s).sp = s.sp + 1 := by
  rw [popEffect_sp, if_neg h.symm]

theorem popEffect_sp_of_eq (h : i = spIndex) : (popEffect i s).sp = s.mem.read s.sp + 1 := by
  rw [popEffect_sp, if_pos h.symm]

/-- A byte's increment as a number. -/
theorem toNat_add_one (b : Byte) : (b + 1).toNat = (b.toNat + 1) % 256 := BitVec.toNat_add b 1

/-- Settles O33: with a register operand POP is the pop effect and then an advance by 1 + 1, which
completes from a `pc` of at most 253. -/
theorem popLoadsAtTheStackPointer : Obligations.PopLoadsAtTheStackPointer := by
  intro s i hpc
  refine ⟨_, exec_pop_completes hpc, fun hi => ⟨popEffect_reg_target s i hi, ?incremented⟩,
    fun hi => ?intoSp, fun j hj hsp => popEffect_reg_ne s i hj hsp, ?advanced, rfl, rfl, rfl⟩
  case incremented =>
    rw [← toNat_add_one]
    exact congrArg BitVec.toNat (popEffect_sp_of_ne hi)
  case intoSp =>
    rw [← toNat_add_one]
    exact congrArg BitVec.toNat (popEffect_sp_of_eq hi)
  case advanced =>
    rw [BitVec.toNat_add]
    exact Nat.mod_eq_of_lt (by omega : s.pc.toNat + 2 < 256)

/-- After a push the byte at the stack pointer is the register pushed (rule R111). -/
theorem pushEffect_read_sp (i : RegIdx) (s : State) :
    (pushEffect i s).mem.read (pushEffect i s).sp = s.reg i := by
  rw [pushEffect_mem, pushEffect_sp, Memory.read_write_same]

/-- Settles O35: the POP reads the byte at the address PUSH left in `SP`, where the register stands, and
steps `SP` back. -/
theorem popUndoesPush : Obligations.PopUndoesPush := by
  intro s t u w i _ _ hpush hsp hbyte hpop
  cases (exec_push_reg s i).symm.trans hpush
  cases (exec_pop_reg u i).symm.trans hpop
  rw [State.sp_advance] at hsp hbyte
  have hread : u.mem.read u.sp = s.reg i := by
    rw [hsp, hbyte, State.advance_mem, pushEffect_read_sp]
  refine ⟨fun hi => ⟨?register, ?stackPointer⟩, fun hi => ?intoSp⟩
  case register => rw [State.reg_advance, popEffect_reg_target u i hi, hread]
  case stackPointer =>
    rw [State.sp_advance, popEffect_sp_of_ne hi, hsp, pushEffect_sp, pushAddress,
      BitVec.sub_add_cancel]
  case intoSp => rw [State.sp_advance, popEffect_sp_of_eq hi, hread, hi]; rfl

/-- A PUSH that can advance leaves its address in `SP` and the register there. -/
theorem exec_push_stores (i : RegIdx) (hpc : s.pc.toNat ≤ 253) :
    ∃ t, exec (.push (regByte i)) s = .next t ∧ t.sp = s.sp - 1 ∧
      t.mem.read (s.sp - 1) = s.reg i :=
  ⟨_, exec_push_completes hpc, pushEffect_sp s i, Memory.read_write_same _ _ _⟩

/-- Settles O36: the stack effects at the two ends of the address space; where the advance completes they
leave the run state. -/
theorem stackAddressesWrap : Obligations.StackAddressesWrap := by
  refine ⟨fun s i hpc hsp => ?push, fun s i hpc hsp hi => ?pop, fun s i hpc =>
    ⟨_, _, exec_push_completes hpc, rfl, exec_pop_completes hpc, rfl⟩⟩
  case push =>
    obtain ⟨t, hexec, haddr, hread⟩ := exec_push_stores i hpc
    rw [hsp] at haddr hread
    exact ⟨t, hexec, hread, haddr⟩
  case pop =>
    refine ⟨_, exec_pop_completes hpc, ?_, ?_⟩
    · rw [← hsp]
      exact popEffect_reg_target s i hi
    · refine (popEffect_sp_of_ne hi).trans ?_
      rw [hsp]; decide

/-- Settles O37: the two stack effects with `SP` at 0xF4. -/
theorem firstPushGoesToF3 : Obligations.FirstPushGoesToF3 := by
  refine ⟨State.reset_sp, fun s i hsp hpc => ⟨?push, ?pop⟩⟩
  case push =>
    obtain ⟨t, hexec, haddr, hread⟩ := exec_push_stores i hpc
    rw [hsp, State.reset_sp] at haddr hread
    exact ⟨t, hexec, haddr, hread⟩
  case pop =>
    rw [State.reset_sp] at hsp
    refine ⟨_, exec_pop_completes hpc, fun hi => ⟨?_, ?_⟩, fun hi => ?_⟩
    · rw [← hsp]
      exact popEffect_reg_target s i hi
    · refine (popEffect_sp_of_ne hi).trans ?_
      rw [hsp]; decide
    · rw [← hsp]
      exact popEffect_sp_of_eq hi

end Sys2Proof.Machine
end

section
/-! PROOFS. The frame of each instruction (spec/10_state.md rule R14): what it leaves alone whenever it
gives a next state, a faulted one included. -/

namespace Sys2Proof.Machine

open Sys2Proof.Spec

variable {s t : State}

/-- Only the register that the byte `r` names, `pc` and a fault taken may differ. -/
def RegisterFrame (r : Byte) (s t : State) : Prop :=
  (∀ j : RegIdx, regByte j ≠ r → t.reg j = s.reg j) ∧ t.mem = s.mem ∧ t.out = s.out ∧
    (t.run = s.run ∨ ∃ f, t.run = .faulted f)

theorem registerFrame_raise (r : Byte) (s : State) (f : FaultReason) :
    RegisterFrame r s (s.raise f) :=
  ⟨fun _ _ => rfl, rfl, rfl, .inr ⟨f, rfl⟩⟩

theorem registerFrame_setReg_advance (s : State) (i : RegIdx) (v : Byte) (n : Nat) :
    RegisterFrame (regByte i) s ((s.setReg i v).advance n) := by
  refine ⟨fun j hj => ?_, State.advance_mem _ n, State.advance_out _ n, State.advance_run _ n⟩
  have hji : j ≠ i := fun e => hj (congrArg regByte e)
  rw [State.reg_advance, s.reg_setReg_ne hji]

theorem exec_ldi_frame {r o : Byte} (h : exec (.ldi r o) s = .next t) : RegisterFrame r s t := by
  rcases exec_ldi_cases h with ⟨_, rfl⟩ | ⟨i, rfl, rfl⟩
  · exact registerFrame_raise r s _
  · exact registerFrame_setReg_advance s i _ 2

theorem exec_mul_frame {r o : Byte} (h : exec (.mul r o) s = .next t) : RegisterFrame r s t := by
  rcases exec_mul_cases h with ⟨_, rfl⟩ | ⟨_, _, rfl⟩ | ⟨i, k, rfl, _, rfl⟩
  · exact registerFrame_raise r s _
  · exact registerFrame_raise r s _
  · exact registerFrame_setReg_advance s i _ 2

/-- Settles O39: each of the two writes the one register its first operand names, or faults. -/
theorem frameOfLdiAndMul : Obligations.FrameOfLdiAndMul := by
  intro s t r o h
  obtain ⟨hregs, hmem, hout, hrun⟩ := h.elim exec_ldi_frame exec_mul_frame
  exact ⟨hregs, fun a => by rw [hmem], hout, hrun⟩

/-- Settles O40: PRN emits or faults, HLT writes the run state only. -/
theorem frameOfPrnAndHlt : Obligations.FrameOfPrnAndHlt := by
  refine ⟨fun s t r h => ?prn, fun s t h => ?hlt⟩
  case prn =>
    rcases exec_prn_cases h with ⟨_, rfl⟩ | ⟨i, rfl, rfl⟩
    · exact ⟨fun _ => rfl, fun _ => rfl, List.prefix_rfl, .inr ⟨_, rfl⟩⟩
    · refine ⟨State.reg_advance _ 1, fun a => ?_, ?_, State.advance_run _ 1⟩
      · rw [State.advance_mem, State.emit_mem]
      · rw [State.advance_out, State.emit_out]
        exact List.prefix_append _ _
  case hlt =>
    cases (exec_hlt s).symm.trans h
    exact ⟨fun _ => rfl, fun _ => rfl, rfl, rfl⟩

/-- Settles O41: the push effect writes `SP` and the byte at its address. -/
theorem frameOfPush : Obligations.FrameOfPush := by
  intro s t r h
  rcases exec_push_cases h with ⟨_, rfl⟩ | ⟨i, rfl, rfl⟩
  · exact ⟨fun _ _ => rfl, fun _ _ _ _ => rfl, rfl, .inr ⟨_, rfl⟩⟩
  · refine ⟨fun j hj => ?registers, fun a b ha hb => ?memory, State.advance_out _ 1,
      State.advance_run _ 1⟩
    case registers => rw [State.reg_advance, pushEffect_reg_ne s i hj]
    case memory => rw [State.advance_mem, pushEffect_mem, ha, Memory.read_write_ne _ hb]

/-- Settles O42: the pop effect writes the register its operand names and `SP`. -/
theorem frameOfPop : Obligations.FrameOfPop := by
  intro s t r h
  rcases exec_pop_cases h with ⟨_, rfl⟩ | ⟨i, rfl, rfl⟩
  · exact ⟨fun _ _ _ => rfl, fun _ => rfl, rfl, .inr ⟨_, rfl⟩⟩
  · refine ⟨fun j hj hsp => ?registers, fun a => ?memory, State.advance_out _ 1,
      State.advance_run _ 1⟩
    case registers =>
      have hji : j ≠ i := fun e => hj (congrArg regByte e)
      rw [State.reg_advance, popEffect_reg_ne s i hji hsp]
    case memory => rw [State.advance_mem, popEffect_mem]

end Sys2Proof.Machine
end

section
/-! PROOFS. The output stream grows only by PRN and is never read (spec/42_output.md rule R95,
spec/10_state.md rule R22). -/

namespace Sys2Proof.Machine

open Sys2Proof.Spec

variable {s t : State}

/-- The output after a meaning: as before, or PRN put the register its operand names at the end. -/
theorem exec_out_cases {i : Instr} (h : exec i s = .next t) :
    t.out = s.out ∨ ∃ j, i = .prn (regByte j) ∧ t.out = s.out ++ [s.reg j] := by
  cases i with
  | hlt => cases (exec_hlt s).symm.trans h; exact .inl rfl
  | push r => obtain ⟨_, _, hout, _⟩ := frameOfPush s t r h; exact .inl hout
  | pop r => obtain ⟨_, _, hout, _⟩ := frameOfPop s t r h; exact .inl hout
  | ldi r o => obtain ⟨_, _, hout, _⟩ := exec_ldi_frame h; exact .inl hout
  | mul a b => obtain ⟨_, _, hout, _⟩ := exec_mul_frame h; exact .inl hout
  | prn r =>
    rcases exec_prn_cases h with ⟨_, rfl⟩ | ⟨j, rfl, rfl⟩
    · exact .inl rfl
    · exact .inr ⟨j, rfl, State.advance_out _ 1⟩

/-- Settles O43: a step that changes the output ran a PRN, whose bytes stand at `pc`. -/
theorem outputGrowsOnlyByPrn : Obligations.OutputGrowsOnlyByPrn := by
  intro s t h
  rcases step_cases h with ⟨_, rfl⟩ | ⟨_, r, _, rfl⟩ | ⟨hr, i, hf, he⟩
  · exact .inl rfl
  · exact .inl rfl
  · rcases exec_out_cases he with hout | ⟨j, rfl, hout⟩
    · exact .inl hout
    · exact .inr ⟨hr, (fetch_ok_opcode hf).1, j, read_first_of_fetch hf rfl, hout⟩

/-- The state with earlier output put before its own. -/
def State.afterOutput (earlier : List Byte) (s : State) : State := { s with out := earlier ++ s.out }

theorem State.advance_afterOutput (earlier : List Byte) (s : State) (n : Nat) :
    (s.afterOutput earlier).advance n = (s.advance n).afterOutput earlier := by
  rw [afterOutput, afterOutput, advance_mk, advance_x, advance_mem, advance_out]

theorem State.emit_afterOutput (earlier : List Byte) (s : State) (v : Byte) :
    (s.afterOutput earlier).emit v = (s.emit v).afterOutput earlier := by
  rw [emit, emit, afterOutput, afterOutput, List.append_assoc]

theorem exec_afterOutput {i : Instr} (h : exec i s = .next t) (earlier : List Byte) :
    exec i (s.afterOutput earlier) = .next (t.afterOutput earlier) := by
  by_cases hw : i.WellFormed
  case neg =>
    obtain ⟨r, hr⟩ := exec_of_not_wellFormed hw
    cases (hr s).symm.trans h
    exact hr _
  cases i with
  | hlt => cases h; rfl
  | push r =>
    obtain ⟨j, rfl⟩ := exists_reg_of_le hw
    rw [exec_push_reg] at h ⊢
    cases h
    exact congrArg _ (State.advance_afterOutput earlier (pushEffect j s) 1)
  | pop r =>
    obtain ⟨j, rfl⟩ := exists_reg_of_le hw
    rw [exec_pop_reg] at h ⊢
    cases h
    exact congrArg _ (State.advance_afterOutput earlier (popEffect j s) 1)
  | prn r =>
    obtain ⟨j, rfl⟩ := exists_reg_of_le hw
    rw [exec_prn_reg] at h ⊢
    cases h
    rw [State.emit_afterOutput, State.advance_afterOutput]
    rfl
  | ldi r imm =>
    obtain ⟨j, rfl⟩ := exists_reg_of_le hw
    rw [exec_ldi_reg] at h ⊢
    cases h
    exact congrArg _ (State.advance_afterOutput earlier (s.setReg j imm) 2)
  | mul a b =>
    obtain ⟨j, rfl⟩ := exists_reg_of_le hw.1
    obtain ⟨k, rfl⟩ := exists_reg_of_le hw.2
    rw [exec_mul_reg] at h ⊢
    cases h
    exact congrArg _ (State.advance_afterOutput earlier
      (s.setReg j (aluResult .mul (s.reg j) (s.reg k))) 2)

theorem fetch_afterOutput (earlier : List Byte) (s : State) :
    fetch (s.afterOutput earlier) = fetch s := fetch_congr rfl fun _ _ _ => rfl

theorem step_afterOutput (h : step s = .next t) (earlier : List Byte) :
    step (s.afterOutput earlier) = .next (t.afterOutput earlier) := by
  have hfetch := fetch_afterOutput earlier s
  rcases step_cases h with ⟨hn, rfl⟩ | ⟨hr, r, hf, rfl⟩ | ⟨hr, i, hf, he⟩
  · exact step_of_stopped hn
  · exact step_of_fetch_error hr (hfetch.trans hf)
  · exact (step_of_fetch_ok (s := s.afterOutput earlier) hr (hfetch.trans hf)).trans
      (exec_afterOutput he earlier)

/-- Settles O44, by induction on the number of steps. -/
theorem outputIsNeverRead : Obligations.OutputIsNeverRead := by
  intro s t k earlier h
  induction k generalizing s with
  | zero => cases h; rfl
  | succ k ih =>
    obtain ⟨u, hu⟩ := step_answers_next s
    rw [run_succ hu] at h
    exact (run_succ (step_afterOutput hu earlier) k).trans (ih u h)

end Sys2Proof.Machine
end

section
/-! PROOFS. The assembly table (spec/30_encoding.md rule R59). -/

namespace Sys2Proof.Machine

open Sys2Proof.Spec

theorem isRegister_regByte (i : RegIdx) : IsRegister (regByte i) := by
  rw [IsRegister, regByte, BitVec.toNat_ofNat]
  omega

/-- A row of the table names a well-formed instruction and has its encoding. -/
theorem tableR59_row {r a b : RegIdx} {imm : Byte} {row : Instr × List Byte}
    (h : row ∈ tableR59 r a b imm) : row.1.WellFormed ∧ encode row.1 = row.2 := by
  have hr := isRegister_regByte r
  simp only [tableR59, List.mem_cons, List.not_mem_nil, or_false] at h
  rcases h with rfl | rfl | rfl | rfl | rfl | rfl
  · exact ⟨trivial, rfl⟩
  · exact ⟨hr, rfl⟩
  · exact ⟨hr, rfl⟩
  · exact ⟨hr, rfl⟩
  · exact ⟨hr, rfl⟩
  · exact ⟨⟨isRegister_regByte a, isRegister_regByte b⟩, rfl⟩

/-- Every well-formed instruction is in some row: its operands name the registers of that row. -/
theorem exists_tableR59_row {i : Instr} (h : i.WellFormed) :
    ∃ r a b imm, (i, encode i) ∈ tableR59 r a b imm := by
  cases i with
  | hlt => exact ⟨0, 0, 0, 0, List.mem_cons_self⟩
  | push r =>
    obtain ⟨j, rfl⟩ := exists_reg_of_le h
    exact ⟨j, 0, 0, 0, by simp [tableR59, encode, regByte, opcPush]⟩
  | pop r =>
    obtain ⟨j, rfl⟩ := exists_reg_of_le h
    exact ⟨j, 0, 0, 0, by simp [tableR59, encode, regByte, opcPop]⟩
  | prn r =>
    obtain ⟨j, rfl⟩ := exists_reg_of_le h
    exact ⟨j, 0, 0, 0, by simp [tableR59, encode, regByte, opcPrn]⟩
  | ldi r imm =>
    obtain ⟨j, rfl⟩ := exists_reg_of_le h
    exact ⟨j, 0, 0, imm, by simp [tableR59, encode, regByte, opcLdi]⟩
  | mul a b =>
    obtain ⟨j, rfl⟩ := exists_reg_of_le h.1
    obtain ⟨k, rfl⟩ := exists_reg_of_le h.2
    exact ⟨0, j, k, 0, by simp [tableR59, encode, regByte, opcMul]⟩

/-- Settles O45: the rows by the encoder and the decoder's law; a step at MUL's bytes is MUL, which
O30 completes. -/
theorem assemblyTableIsTheEncoding : Obligations.AssemblyTableIsTheEncoding := by
  refine ⟨fun r a b imm row hrow => ?rows, fun i hi => exists_tableR59_row hi, by decide,
    fun s a b hr hpc hcode => ?mul⟩
  case rows =>
    obtain ⟨hwf, henc⟩ := tableR59_row hrow
    refine ⟨hwf, henc, fun rest => ?_⟩
    rw [← henc, decode_encode_append]
  case mul =>
    obtain ⟨t, hexec, hprod, hothers, hpc', hmem, hout, hrun⟩ := mulMultipliesModulo256 s a b hpc
    have hfetch : fetch s = .ok (.mul (regByte a) (regByte b)) := fetch_eq_ok_iff.mpr hcode
    exact ⟨t, (step_of_fetch_ok hr hfetch).trans hexec, hrun.trans hr, hpc', hprod, hothers, hmem,
      hout⟩

end Sys2Proof.Machine
end

section
/-! PROOFS. The step is the whole-step function of spec/40_cycle_and_decode.md rule R79: first the effects
written over the raw state are the model's, then each branch of the pseudocode is a way the model's
step ends. -/

namespace Sys2Proof.Machine

open Sys2Proof.Spec

variable {s : State}

/-! The raw register file, and numbers back to bytes (`ofNat_pc_zero` holds of every byte). -/

theorem State.x_getD (s : State) (i : RegIdx) : s.x[i.val]?.getD 0 = s.reg i := by
  rw [Vector.getElem?_eq_getElem i.isLt, Option.getD_some]
  rfl

theorem State.x_setIfInBounds (s : State) (i : RegIdx) (v : Byte) :
    s.x.setIfInBounds i.val v = (s.setReg i v).x := by
  refine Vector.ext fun k hk => ?_
  rw [State.setReg_x, Vector.getElem_setIfInBounds hk, Vector.getElem_set]

theorem ofNat_succ_mod (b : Byte) : BitVec.ofNat 8 ((b.toNat + 1) % 256) = b + 1 := by
  rw [← toNat_add_one, ofNat_pc_zero]

theorem toNat_regByte (i : RegIdx) : (regByte i).toNat = i.val := by
  rw [regByte, BitVec.toNat_ofNat]
  omega

/-! Each effect of R79 is the model's effect of that instruction. -/

theorem effectR79_ldi (i : RegIdx) (imm : Byte) (s : State) :
    effectR79 130 i.val imm.toNat s = s.setReg i imm := by
  simp only [effectR79, reduceIte]
  rw [ofNat_pc_zero, State.x_setIfInBounds]
  rfl

theorem effectR79_prn (i : RegIdx) (o2 : Nat) (s : State) :
    effectR79 71 i.val o2 s = s.emit (s.reg i) := by
  simp only [effectR79, Nat.reduceEqDiff, reduceIte]
  rw [State.x_getD, ofNat_pc_zero]
  rfl

theorem effectR79_mul (i j : RegIdx) (s : State) :
    effectR79 162 i.val j.val s = s.setReg i (aluResult .mul (s.reg i) (s.reg j)) := by
  simp only [effectR79, Nat.reduceEqDiff, reduceIte]
  rw [State.x_getD, State.x_getD, ← toNat_aluResult_mul, ofNat_pc_zero, State.x_setIfInBounds]
  rfl

theorem effectR79_push (i : RegIdx) (o2 : Nat) (s : State) :
    effectR79 69 i.val o2 s = pushEffect i s := by
  have hsp : s.x[7]?.getD 0 = s.sp := s.x_getD spIndex
  have hset : s.x.setIfInBounds 7 (pushAddress s) = (s.setSp (pushAddress s)).x :=
    s.x_setIfInBounds spIndex _
  simp only [effectR79, Nat.reduceEqDiff, reduceIte]
  rw [State.x_getD, hsp, ← pushAddress_eq_ofNat, ofNat_pc_zero, hset]
  rfl

theorem effectR79_pop (i : RegIdx) (o2 : Nat) (s : State) :
    effectR79 70 i.val o2 s = popEffect i s := by
  have hsp : s.x[7]?.getD 0 = s.sp := s.x_getD spIndex
  have hloaded (t : State) : t.x[7]?.getD 0 = t.sp := t.x_getD spIndex
  have hset (t : State) (v : Byte) : t.x.setIfInBounds 7 v = (t.setSp v).x :=
    t.x_setIfInBounds spIndex v
  simp only [effectR79, Nat.reduceEqDiff, reduceIte]
  rw [hsp, ofNat_pc_zero, ofNat_pc_zero, State.x_setIfInBounds, hloaded, ofNat_succ_mod, hset]
  rfl

theorem effectR79_pc (op o1 o2 : Nat) (s : State) : (effectR79 op o1 o2 s).pc = s.pc := by
  unfold effectR79
  dsimp only
  split_ifs <;> rfl

/-! The branches of R79. -/

theorem toNat_mem_iff_supported (b : Byte) :
    b.toNat ∈ [1, 69, 70, 71, 130, 162] ↔ b ∈ supportedOpcodes :=
  List.mem_map_of_injective (l := supportedOpcodes) (f := BitVec.toNat)
    (fun _ _ => BitVec.eq_of_toNat_eq)

theorem stepR79_of_unknown (h : s.mem.read s.pc ∉ supportedOpcodes) :
    stepR79 s = s.raise (.unknownOpcode (s.mem.read s.pc)) := by
  simp only [stepR79]
  rw [if_pos (mt (toNat_mem_iff_supported _).mp h), ofNat_pc_zero]
  rfl

theorem operandCount_le_two : ∀ op ∈ supportedOpcodes, op.toNat / 64 ≤ 2 := by decide

theorem stepR79_of_operandPastTop (h : s.OperandPastTop) :
    stepR79 s = s.raise (.outOfRange .operandFetch 256) := by
  have hpast := h.lt
  have hpc := s.pc.isLt
  have hop := (toNat_mem_iff_supported _).mpr h.supported
  have hcount := operandCount_le_two _ h.supported
  simp only [stepR79]
  rw [if_neg (not_not.mpr hop)]
  by_cases hfirst : 255 < s.pc.toNat + 1
  · have haddr : s.pc.toNat + 1 = 256 := by omega
    rw [if_pos ⟨by omega, hfirst⟩, haddr]
    rfl
  · have haddr : s.pc.toNat + 2 = 256 := by omega
    rw [if_neg (fun hc => hfirst hc.2), if_pos ⟨by omega, by omega⟩, haddr]
    rfl

theorem stepR79_of_hlt (h : s.mem.read s.pc = opcHlt) : stepR79 s = s.halt := by
  simp only [stepR79]
  rw [h]
  rfl

theorem opcode_supported (i : Instr) : i.opcode ∈ supportedOpcodes := by
  cases i <;> rw [Instr.opcode] <;> decide

theorem opcode_toNat_ne_one {i : Instr} (h : i ≠ .hlt) : i.opcode.toNat ≠ 1 := by
  cases i with
  | hlt => exact absurd rfl h
  | _ => rw [Instr.opcode]; decide

/-- The last lines of R79 are the advance of the state after the effect. -/
theorem advance_eq_ite {t : State} (h : t.pc = s.pc) (n : Nat) :
    (if 255 < s.pc.toNat + 1 + n then
        { t with run := .faulted (.outOfRange .pcAdvance (s.pc.toNat + 1 + n)) }
      else { t with pc := BitVec.ofNat 8 (s.pc.toNat + 1 + n) }) = t.advance n := by
  rw [← h]
  split
  case isTrue hgt => exact (t.advance_of_gt hgt).symm
  case isFalse hle => exact (t.advance_of_le (Nat.le_of_not_lt hle)).symm

/-- R79 once an instruction other than HLT is fetched: the register checks, then the effect and the
advance. -/
theorem stepR79_of_fetch_ok {i : Instr} (hf : fetch s = .ok i) (hi : i ≠ .hlt) :
    stepR79 s =
      if 7 < (s.mem.read (s.pc + 1)).toNat then
        s.raise (.outOfRange .registerIndex (s.mem.read (s.pc + 1)).toNat)
      else if i.opcode.toNat = 162 ∧ 7 < (s.mem.read (s.pc + 2)).toNat then
        s.raise (.outOfRange .registerIndex (s.mem.read (s.pc + 2)).toNat)
      else (effectR79 i.opcode.toNat (s.mem.read (s.pc + 1)).toNat (s.mem.read (s.pc + 2)).toNat
        s).advance (operandCount i.opcode) := by
  obtain ⟨hop, hfits⟩ := fetch_ok_opcode hf
  rw [encode_length, operandCount_eq_div] at hfits
  simp only [stepR79, hop, ofNat_pc_one, ofNat_pc_two]
  rw [if_neg (not_not.mpr ((toNat_mem_iff_supported _).mpr (opcode_supported i))),
    if_neg (by omega), if_neg (by omega), if_neg (opcode_toNat_ne_one hi),
    advance_eq_ite (effectR79_pc _ _ _ s), operandCount_eq_div]
  rfl

section
variable {i : Instr} (hf : fetch s = .ok i) (hi : i ≠ .hlt)
include hf hi

/-- R79 where the first operand is no register. -/
theorem stepR79_of_first_ge (h : 8 ≤ (s.mem.read (s.pc + 1)).toNat) :
    stepR79 s = s.raise (.outOfRange .registerIndex (s.mem.read (s.pc + 1)).toNat) := by
  rw [stepR79_of_fetch_ok hf hi]
  exact if_pos h

/-- R79 where the first operand is a register, and so is MUL's second. -/
theorem stepR79_of_register {j : RegIdx} (h : s.mem.read (s.pc + 1) = regByte j)
    (hsecond : ¬ (i.opcode.toNat = 162 ∧ 7 < (s.mem.read (s.pc + 2)).toNat)) :
    stepR79 s = (effectR79 i.opcode.toNat j.val (s.mem.read (s.pc + 2)).toNat s).advance
      (operandCount i.opcode) := by
  have hj : ¬ 7 < j.val := by omega
  rw [stepR79_of_fetch_ok hf hi, h, toNat_regByte, if_neg hj, if_neg hsecond]

/-- An instruction with one register operand means R79, if it faults where R79 checks that operand and
has R79's effect where it is a register. -/
theorem exec_eq_stepR79_of_one_register {r : Byte} (hr : (encode i)[1]? = some r)
    (hmul : i.opcode.toNat ≠ 162)
    (hbad : 8 ≤ r.toNat → exec i s = .next (s.raise (.outOfRange .registerIndex r.toNat)))
    (heffect : ∀ j : RegIdx, r = regByte j → exec i s =
      .next ((effectR79 i.opcode.toNat j.val (s.mem.read (s.pc + 2)).toNat s).advance
        (operandCount i.opcode))) :
    exec i s = .next (stepR79 s) := by
  have ho1 := read_first_of_fetch hf hr
  rcases regOperand_cases r with ⟨j, hj, _⟩ | ⟨hge, _⟩
  · rw [stepR79_of_register hf hi (ho1.trans hj) (fun hc => hmul hc.1), heffect j hj]
  · rw [stepR79_of_first_ge hf hi (by rwa [ho1]), hbad hge, ho1]

end

theorem exec_mul_eq_stepR79 {a b : Byte} (hf : fetch s = .ok (.mul a b)) :
    exec (.mul a b) s = .next (stepR79 s) := by
  have ho1 : s.mem.read (s.pc + 1) = a := read_first_of_fetch hf rfl
  have ho2 : s.mem.read (s.pc + 2) = b := read_second_of_fetch hf rfl
  rcases regOperand_cases a with ⟨i, hi, _⟩ | ⟨ha, _⟩
  · have ha : a.toNat ≤ 7 := by rw [hi]; exact isRegister_regByte i
    rcases regOperand_cases b with ⟨j, hj, _⟩ | ⟨hb, _⟩
    · have hb : b.toNat = j.val := by rw [hj]; exact toNat_regByte j
      rw [stepR79_of_register hf nofun (ho1.trans hi) (by rw [ho2, hb]; omega), ho2, hb]
      change _ = Host.Outcome.next (State.advance (effectR79 162 i.val j.val s) (operandCount opcMul))
      rw [effectR79_mul, operandCount_opcMul, hi, hj]
      exact exec_mul_reg s i j
    · rw [stepR79_of_fetch_ok hf nofun, ho1, ho2, if_neg (Nat.not_lt.mpr ha),
        exec_mul_of_second_ge hb s ha]
      exact congrArg _ (if_pos ⟨rfl, hb⟩).symm
  · rw [stepR79_of_first_ge hf nofun (by rwa [ho1]), ho1, exec_mul_of_first_ge ha]

/-- The meaning of a fetched instruction is the rest of R79. -/
theorem exec_eq_stepR79 {i : Instr} (hf : fetch s = .ok i) : exec i s = .next (stepR79 s) := by
  cases i with
  | hlt => rw [stepR79_of_hlt (fetch_ok_opcode hf).1, exec_hlt]
  | push r =>
    refine exec_eq_stepR79_of_one_register hf nofun rfl (by rw [Instr.opcode]; decide)
      (fun h => exec_push_of_ge h s) ?_
    rintro j rfl
    change _ = Host.Outcome.next (State.advance (effectR79 69 j.val _ s) (operandCount opcPush))
    rw [effectR79_push, operandCount_opcPush]
    exact exec_push_reg s j
  | pop r =>
    refine exec_eq_stepR79_of_one_register hf nofun rfl (by rw [Instr.opcode]; decide)
      (fun h => exec_pop_of_ge h s) ?_
    rintro j rfl
    change _ = Host.Outcome.next (State.advance (effectR79 70 j.val _ s) (operandCount opcPop))
    rw [effectR79_pop, operandCount_opcPop]
    exact exec_pop_reg s j
  | prn r =>
    refine exec_eq_stepR79_of_one_register hf nofun rfl (by rw [Instr.opcode]; decide)
      (fun h => exec_prn_of_ge h s) ?_
    rintro j rfl
    change _ = Host.Outcome.next (State.advance (effectR79 71 j.val _ s) (operandCount opcPrn))
    rw [effectR79_prn, operandCount_opcPrn]
    exact exec_prn_reg s j
  | ldi r imm =>
    refine exec_eq_stepR79_of_one_register hf nofun rfl (by rw [Instr.opcode]; decide)
      (fun h => exec_ldi_of_ge h s imm) ?_
    rintro j rfl
    rw [read_second_of_fetch hf rfl]
    change _ = Host.Outcome.next (State.advance (effectR79 130 j.val imm.toNat s) (operandCount opcLdi))
    rw [effectR79_ldi, operandCount_opcLdi]
    exact exec_ldi_reg s j imm
  | mul a b => exact exec_mul_eq_stepR79 hf

/-- Settles O6: R79 takes the fault the fetch raises, and does what the fetched instruction means. -/
theorem stepIsTheWholeStepFunction : Obligations.StepIsTheWholeStepFunction := by
  intro s hr
  cases hf : fetch s with
  | ok i => rw [step_of_fetch_ok hr hf, exec_eq_stepR79 hf]
  | error r =>
    rw [step_of_fetch_error hr hf]
    rcases fetch_error_cases hf with ⟨rfl, hop⟩ | ⟨rfl, hpast⟩
    · rw [stepR79_of_unknown hop]
    · rw [stepR79_of_operandPastTop hpast]

end Sys2Proof.Machine
end
